-- ==== Sys2Proof/Word.lean ====
section
/-! DEFINITION. The word types: a byte, a 16-bit word, a register number, the key set and the framebuffer. -/

namespace Sys2Proof

/-- An 8-bit value: a general register, a timer, a byte of memory (10_state R20, R27, R32). -/
abbrev Byte := BitVec 8

/-- A 16-bit value: `I`, `PC`, a stack entry, an instruction word (10_state R24, R25, R29; 30_encoding R70). -/
abbrev Word := BitVec 16

/-- The number of a general register, 0x0 to 0xF (10_state R20). -/
abbrev RegNum := Fin 16

/-- The pressed-key set: bit k is 1 when key k is pressed (00_scope R9, 10_state R31). -/
abbrev KeySet := BitVec 16

/-- The 64 x 32 grid of boolean pixels, as 32 rows of 64 cells (10_state R30). -/
abbrev Framebuffer := Vector (Vector Bool 64) 32

end Sys2Proof
end

