-- ==== Sys2Proof/Syntax.lean ====
section
/-! DEFINITION. The instructions: one constructor for each of the 34 rows of 30_encoding R78 and of
spec/opcode_table.json. -/

namespace Sys2Proof

/-- The 34 instructions (30_encoding R78). `x` and `y` are register numbers, `kk` an 8-bit immediate, `nnn` a 12-bit
address, `n` a row count. -/
inductive Instr where
  /-- `00E0` CLS, R190 -/
  | cls
  /-- `00EE` RET, R120 -/
  | ret
  /-- `1NNN` JP nnn, R121 -/
  | jp (nnn : BitVec 12)
  /-- `2NNN` CALL nnn, R122 -/
  | call (nnn : BitVec 12)
  /-- `3XKK` SE Vx, kk, R123 -/
  | seImm (x : RegNum) (kk : Byte)
  /-- `4XKK` SNE Vx, kk, R124 -/
  | sneImm (x : RegNum) (kk : Byte)
  /-- `5XY-` SE Vx, Vy, R125 -/
  | seReg (x y : RegNum)
  /-- `6XKK` LD Vx, kk, R140 -/
  | ldImm (x : RegNum) (kk : Byte)
  /-- `7XKK` ADD Vx, kk, R141 -/
  | addImm (x : RegNum) (kk : Byte)
  /-- `8XY0` LD Vx, Vy, R142 -/
  | ldReg (x y : RegNum)
  /-- `8XY1` OR Vx, Vy, R143 -/
  | orReg (x y : RegNum)
  /-- `8XY2` AND Vx, Vy, R144 -/
  | andReg (x y : RegNum)
  /-- `8XY3` XOR Vx, Vy, R145 -/
  | xorReg (x y : RegNum)
  /-- `8XY4` ADD Vx, Vy, R147 -/
  | addReg (x y : RegNum)
  /-- `8XY5` SUB Vx, Vy, R148 -/
  | subReg (x y : RegNum)
  /-- `8XY6` SHR Vx, R149 (`y` is encoded and ignored) -/
  | shr (x : RegNum)
  /-- `8XY7` SUBN Vx, Vy, R150 -/
  | subnReg (x y : RegNum)
  /-- `8XYE` SHL Vx, R151 (`y` is encoded and ignored) -/
  | shl (x : RegNum)
  /-- `9XY-` SNE Vx, Vy, R126 -/
  | sneReg (x y : RegNum)
  /-- `ANNN` LD I, nnn, R170 -/
  | ldI (nnn : BitVec 12)
  /-- `BNNN` JP V0, nnn, R127 -/
  | jpV0 (nnn : BitVec 12)
  /-- `CXKK` RND Vx, kk, R152 -/
  | rnd (x : RegNum) (kk : Byte)
  /-- `DXYN` DRW Vx, Vy, n, R191 -/
  | drw (x y : RegNum) (n : Nat)
  /-- `EX9E` SKP Vx, R200 -/
  | skp (x : RegNum)
  /-- `EXA1` SKNP Vx, R201 -/
  | sknp (x : RegNum)
  /-- `FX07` LD Vx, DT, R202 -/
  | ldVxDt (x : RegNum)
  /-- `FX0A` LD Vx, K, R203 -/
  | ldVxKey (x : RegNum)
  /-- `FX15` LD DT, Vx, R204 -/
  | ldDtVx (x : RegNum)
  /-- `FX18` LD ST, Vx, R205 -/
  | ldStVx (x : RegNum)
  /-- `FX1E` ADD I, Vx, R171 -/
  | addI (x : RegNum)
  /-- `FX29` LD F, Vx, R172 -/
  | ldFont (x : RegNum)
  /-- `FX33` LD B, Vx, R173 -/
  | ldBcd (x : RegNum)
  /-- `FX55` LD [I], Vx, R174 -/
  | dump (x : RegNum)
  /-- `FX65` LD Vx, [I], R175 -/
  | load (x : RegNum)
  deriving DecidableEq, Repr

end Sys2Proof
end

