-- ==== Sys2Proof/Decode.lean ====
section
/-! DEFINITION. The decoder (30_encoding R70 to R80, 40_cycle_and_dispatch R104), the mask and match table of R78 as
data, and the encoder. The opcode numbers are the spec's (D2, from general knowledge but for 6XKK and 7XKK; log 5); the
secondary keys of primaries 0x0 and 0xE are the byte (D3; log 6). -/

namespace Sys2Proof

/-- `p`, bits 15 to 12 (R71). -/
def fieldP (w : Word) : BitVec 4 := w.extractLsb' 12 4

/-- `x`, bits 11 to 8, as a register number (R71, R73). -/
def fieldX (w : Word) : RegNum := (w.extractLsb' 8 4).toFin

/-- `y`, bits 7 to 4, as a register number (R71, R73). -/
def fieldY (w : Word) : RegNum := (w.extractLsb' 4 4).toFin

/-- `n`, bits 3 to 0 (R71). -/
def fieldN (w : Word) : BitVec 4 := w.extractLsb' 0 4

/-- `kk`, bits 7 to 0 (R71). -/
def fieldKk (w : Word) : Byte := w.extractLsb' 0 8

/-- `nnn`, bits 11 to 0 (R71). -/
def fieldNnn (w : Word) : BitVec 12 := w.extractLsb' 0 12

/-- Why a byte sequence is no instruction. -/
inductive DecodeReject where
  /-- the primary and secondary codes have no handler (R80): the primary code and the byte of the word -/
  | noHandler (primary : BitVec 4) (byte : Byte)
  /-- fewer than the two bytes of an instruction (R70) -/
  | truncated
  deriving DecidableEq, Repr

/-- The two-level dispatch of 40_cycle_and_dispatch R104: the handler of a word, with its operands. -/
def decodeWord (w : Word) : Except DecodeReject Instr :=
  let x := fieldX w
  let y := fieldY w
  let kk := fieldKk w
  let nnn := fieldNnn w
  match (fieldP w).toNat with
  | 0x0 =>
    match kk.toNat with
    | 0xE0 => .ok .cls
    | 0xEE => .ok .ret
    | _ => .error (.noHandler 0x0 kk)
  | 0x1 => .ok (.jp nnn)
  | 0x2 => .ok (.call nnn)
  | 0x3 => .ok (.seImm x kk)
  | 0x4 => .ok (.sneImm x kk)
  | 0x5 => .ok (.seReg x y)
  | 0x6 => .ok (.ldImm x kk)
  | 0x7 => .ok (.addImm x kk)
  | 0x8 =>
    match (fieldN w).toNat with
    | 0x0 => .ok (.ldReg x y)
    | 0x1 => .ok (.orReg x y)
    | 0x2 => .ok (.andReg x y)
    | 0x3 => .ok (.xorReg x y)
    | 0x4 => .ok (.addReg x y)
    | 0x5 => .ok (.subReg x y)
    | 0x6 => .ok (.shr x)
    | 0x7 => .ok (.subnReg x y)
    | 0xE => .ok (.shl x)
    | _ => .error (.noHandler 0x8 kk)
  | 0x9 => .ok (.sneReg x y)
  | 0xA => .ok (.ldI nnn)
  | 0xB => .ok (.jpV0 nnn)
  | 0xC => .ok (.rnd x kk)
  | 0xD => .ok (.drw x y (fieldN w).toNat)
  | 0xE =>
    match kk.toNat with
    | 0x9E => .ok (.skp x)
    | 0xA1 => .ok (.sknp x)
    | _ => .error (.noHandler 0xE kk)
  | _ => -- 0xF, the last value of a 4-bit field
    match kk.toNat with
    | 0x07 => .ok (.ldVxDt x)
    | 0x0A => .ok (.ldVxKey x)
    | 0x15 => .ok (.ldDtVx x)
    | 0x18 => .ok (.ldStVx x)
    | 0x1E => .ok (.addI x)
    | 0x29 => .ok (.ldFont x)
    | 0x33 => .ok (.ldBcd x)
    | 0x55 => .ok (.dump x)
    | 0x65 => .ok (.load x)
    | _ => .error (.noHandler 0xF kk)

/-- A word from its two bytes as memory holds them, the byte at the lower address high (20_memory R52; log 7). -/
def wordOfBytes (first second : Byte) : Word := first ++ second

/-- The two bytes of a word as memory holds them (20_memory R52; log 7). -/
def bytesOfWord (w : Word) : List Byte := [w.extractLsb' 8 8, w.extractLsb' 0 8]

/-- Decoding a byte sequence: the instruction its first two bytes hold, and the rest (R70). Total on any bytes. -/
def decode : List Byte → Except DecodeReject (Instr × List Byte)
  | first :: second :: rest =>
    match decodeWord (wordOfBytes first second) with
    | .ok i => .ok (i, rest)
    | .error e => .error e
  | _ => .error .truncated

/-- The instruction the decoder reads from a table row's `nbits` bits `w`: the bits above `nbits` are 0, and an
instruction has 16 bits, laid out in memory order. -/
def decodeTableWord (nbits w : Nat) : Option Instr :=
  match decode (bytesOfWord (BitVec.ofNat 16 (w % 2 ^ nbits))) with
  | .ok (i, _) => some i
  | .error _ => none

/-- Format A (R72). -/
def wordA (p : BitVec 4) (nnn : BitVec 12) : Word := p ++ nnn

/-- Formats XK and XS, and Z with `x` = 0 (R72). -/
def wordXK (p : BitVec 4) (x : RegNum) (kk : Byte) : Word := (p ++ BitVec.ofFin (w := 4) x : BitVec 8) ++ kk

/-- Formats XY and XYN (R72). -/
def wordXYN (p : BitVec 4) (x y : RegNum) (n : BitVec 4) : Word :=
  (p ++ BitVec.ofFin (w := 4) x : BitVec 8) ++ (BitVec.ofFin (w := 4) y ++ n : BitVec 8)

/-- The word of an instruction, its ignored bits 0 (R78, R79). -/
def encodeWord : Instr → Word
  | .cls => wordXK 0x0 0 0xE0
  | .ret => wordXK 0x0 0 0xEE
  | .jp nnn => wordA 0x1 nnn
  | .call nnn => wordA 0x2 nnn
  | .seImm x kk => wordXK 0x3 x kk
  | .sneImm x kk => wordXK 0x4 x kk
  | .seReg x y => wordXYN 0x5 x y 0x0
  | .ldImm x kk => wordXK 0x6 x kk
  | .addImm x kk => wordXK 0x7 x kk
  | .ldReg x y => wordXYN 0x8 x y 0x0
  | .orReg x y => wordXYN 0x8 x y 0x1
  | .andReg x y => wordXYN 0x8 x y 0x2
  | .xorReg x y => wordXYN 0x8 x y 0x3
  | .addReg x y => wordXYN 0x8 x y 0x4
  | .subReg x y => wordXYN 0x8 x y 0x5
  | .shr x => wordXYN 0x8 x 0 0x6
  | .subnReg x y => wordXYN 0x8 x y 0x7
  | .shl x => wordXYN 0x8 x 0 0xE
  | .sneReg x y => wordXYN 0x9 x y 0x0
  | .ldI nnn => wordA 0xA nnn
  | .jpV0 nnn => wordA 0xB nnn
  | .rnd x kk => wordXK 0xC x kk
  | .drw x y n => wordXYN 0xD x y (BitVec.ofNat 4 n)
  | .skp x => wordXK 0xE x 0x9E
  | .sknp x => wordXK 0xE x 0xA1
  | .ldVxDt x => wordXK 0xF x 0x07
  | .ldVxKey x => wordXK 0xF x 0x0A
  | .ldDtVx x => wordXK 0xF x 0x15
  | .ldStVx x => wordXK 0xF x 0x18
  | .addI x => wordXK 0xF x 0x1E
  | .ldFont x => wordXK 0xF x 0x29
  | .ldBcd x => wordXK 0xF x 0x33
  | .dump x => wordXK 0xF x 0x55
  | .load x => wordXK 0xF x 0x65

/-- The bytes of an instruction, the first at the lowest address. -/
def encode (i : Instr) : List Byte := bytesOfWord (encodeWord i)

/-- One row of the table of R78: a word `w` is this instruction when `w &&& mask = pattern`. -/
structure OpcodeRow where
  /-- the fixed bits -/
  mask : Word
  /-- their values -/
  pattern : Word
  /-- the operand bits: those that are neither fixed nor ignored -/
  operands : Word
  /-- the instruction, its operands read by R71 -/
  read : Word → Instr

/-- Whether a word is the instruction of a row (R78). -/
def OpcodeRow.holds (r : OpcodeRow) (w : Word) : Bool := w &&& r.mask == r.pattern

/-- Rows 1 to 18 of R78. -/
def opcodeRowsLow : List OpcodeRow :=
  [ ⟨0xF0FF, 0x00E0, 0x0000, fun _ => .cls⟩,
    ⟨0xF0FF, 0x00EE, 0x0000, fun _ => .ret⟩,
    ⟨0xF000, 0x1000, 0x0FFF, fun w => .jp (fieldNnn w)⟩,
    ⟨0xF000, 0x2000, 0x0FFF, fun w => .call (fieldNnn w)⟩,
    ⟨0xF000, 0x3000, 0x0FFF, fun w => .seImm (fieldX w) (fieldKk w)⟩,
    ⟨0xF000, 0x4000, 0x0FFF, fun w => .sneImm (fieldX w) (fieldKk w)⟩,
    ⟨0xF000, 0x5000, 0x0FF0, fun w => .seReg (fieldX w) (fieldY w)⟩,
    ⟨0xF000, 0x6000, 0x0FFF, fun w => .ldImm (fieldX w) (fieldKk w)⟩,
    ⟨0xF000, 0x7000, 0x0FFF, fun w => .addImm (fieldX w) (fieldKk w)⟩,
    ⟨0xF00F, 0x8000, 0x0FF0, fun w => .ldReg (fieldX w) (fieldY w)⟩,
    ⟨0xF00F, 0x8001, 0x0FF0, fun w => .orReg (fieldX w) (fieldY w)⟩,
    ⟨0xF00F, 0x8002, 0x0FF0, fun w => .andReg (fieldX w) (fieldY w)⟩,
    ⟨0xF00F, 0x8003, 0x0FF0, fun w => .xorReg (fieldX w) (fieldY w)⟩,
    ⟨0xF00F, 0x8004, 0x0FF0, fun w => .addReg (fieldX w) (fieldY w)⟩,
    ⟨0xF00F, 0x8005, 0x0FF0, fun w => .subReg (fieldX w) (fieldY w)⟩,
    ⟨0xF00F, 0x8006, 0x0F00, fun w => .shr (fieldX w)⟩,
    ⟨0xF00F, 0x8007, 0x0FF0, fun w => .subnReg (fieldX w) (fieldY w)⟩,
    ⟨0xF00F, 0x800E, 0x0F00, fun w => .shl (fieldX w)⟩ ]

/-- Rows 19 to 34 of R78. -/
def opcodeRowsHigh : List OpcodeRow :=
  [ ⟨0xF000, 0x9000, 0x0FF0, fun w => .sneReg (fieldX w) (fieldY w)⟩,
    ⟨0xF000, 0xA000, 0x0FFF, fun w => .ldI (fieldNnn w)⟩,
    ⟨0xF000, 0xB000, 0x0FFF, fun w => .jpV0 (fieldNnn w)⟩,
    ⟨0xF000, 0xC000, 0x0FFF, fun w => .rnd (fieldX w) (fieldKk w)⟩,
    ⟨0xF000, 0xD000, 0x0FFF, fun w => .drw (fieldX w) (fieldY w) (fieldN w).toNat⟩,
    ⟨0xF0FF, 0xE09E, 0x0F00, fun w => .skp (fieldX w)⟩,
    ⟨0xF0FF, 0xE0A1, 0x0F00, fun w => .sknp (fieldX w)⟩,
    ⟨0xF0FF, 0xF007, 0x0F00, fun w => .ldVxDt (fieldX w)⟩,
    ⟨0xF0FF, 0xF00A, 0x0F00, fun w => .ldVxKey (fieldX w)⟩,
    ⟨0xF0FF, 0xF015, 0x0F00, fun w => .ldDtVx (fieldX w)⟩,
    ⟨0xF0FF, 0xF018, 0x0F00, fun w => .ldStVx (fieldX w)⟩,
    ⟨0xF0FF, 0xF01E, 0x0F00, fun w => .addI (fieldX w)⟩,
    ⟨0xF0FF, 0xF029, 0x0F00, fun w => .ldFont (fieldX w)⟩,
    ⟨0xF0FF, 0xF033, 0x0F00, fun w => .ldBcd (fieldX w)⟩,
    ⟨0xF0FF, 0xF055, 0x0F00, fun w => .dump (fieldX w)⟩,
    ⟨0xF0FF, 0xF065, 0x0F00, fun w => .load (fieldX w)⟩ ]

/-- The complete instruction list of R78, the normative form of the encoding. -/
def opcodeTable : List OpcodeRow := opcodeRowsLow ++ opcodeRowsHigh

end Sys2Proof
end

