-- ==== Sys2Proof/Config.lean ====
section
/-! DEFINITION. The fixed parameters of 00_scope R5, and the free values: the inputs that the host supplies and the
spec leaves open (00_scope R6). The font bytes, a constant too, stand in Machine/Font.lean. -/

namespace Sys2Proof

/-- `MEM_SIZE`: addresses 0x000 to 0xFFF (00_scope R5). -/
abbrev Config.memSize : Nat := 4096

/-- `FONT_BASE` (00_scope R5). -/
abbrev Config.fontBase : Nat := 0x050

/-- `FONT_END`, exclusive (00_scope R5). -/
abbrev Config.fontEnd : Nat := 0x0A0

/-- `GLYPH_BYTES` (00_scope R5). -/
abbrev Config.glyphBytes : Nat := 5

/-- `LOAD_ADDR`, where the image goes and where `PC` starts (00_scope R5). -/
abbrev Config.loadAddr : Nat := 0x200

/-- `MAX_IMAGE`, the longest program image (00_scope R5, 70_reset_and_hazards R251). -/
abbrev Config.maxImage : Nat := 3584

/-- `STACK_DEPTH` (00_scope R5). -/
abbrev Config.stackDepth : Nat := 64

/-- `FLAG_REG`, the number of the flags register VF (00_scope R5, 10_state R22). -/
abbrev Config.flagReg : RegNum := 15

/-- `FB_W`, the columns of the framebuffer (00_scope R5). -/
abbrev Config.fbWidth : Nat := 64

/-- `FB_H`, the rows of the framebuffer (00_scope R5). -/
abbrev Config.fbHeight : Nat := 32

/-- FREE VALUE: the `keys` of the n-th unscripted cycle, under no law (00_scope R6 KEYS, D1; log 1). -/
opaque Config.freeKeys : Nat → KeySet

/-- FREE VALUE: the `draw` of the n-th unscripted cycle, under no law (00_scope R6 RNG, D21; log 1). -/
opaque Config.freeDraw : Nat → Byte

/-- FREE VALUE: how many ticks the host issues right after the n-th unscripted cycle (00_scope R6 TICK_SCHEDULE,
40_cycle_and_dispatch R111, R112; D16; log 1). -/
opaque Config.freeTicks : Nat → Nat

end Sys2Proof
end

