-- ==== Sys2Proof/Machine/State.lean ====
section
/-! DEFINITION. The state of the machine as plain data, the ways a step stops, and the state after reset
(10_state R20 to R34, R40; 60_exceptions R220). -/

namespace Sys2Proof.Machine

/-- The four fatal conditions of 60_exceptions R220, with the information each records. All are SAFE: the machine stops
where the spec ends the session. -/
inductive Fault where
  /-- Raised by a Cycle that fetches an illegal word, before any handler runs: the address of the word and the word
  (R222). Safe: the spec ends the session here. -/
  | decodeError (addr word : Word)
  /-- Raised by CALL when SP = 64, nothing pushed: PC as the handler sees it, a + 2 (R223, D17). Safe: as above. -/
  | stackOverflow (pc : Word)
  /-- Raised by RET when SP = 0, nothing popped: PC as the handler sees it, a + 2 (R223, D17). Safe: as above. -/
  | stackUnderflow (pc : Word)
  /-- Raised by Reset with an image of more than 3584 bytes: its length (R225). Safe: as above. -/
  | loadOverflow (length : Nat)
  deriving DecidableEq, Repr

/-- Why a step has no meaning. No instruction of this machine is refused (00_scope R16). -/
inductive Refusal where
  /-- Raised by an arm of `exec` for an instruction without a meaning; no arm of this model does. Safe: the model stops
  where the machine goes on. -/
  | notModelled (mnemonic : String)
  deriving DecidableEq, Repr

/-- `STATUS`, the run state (10_state R28). -/
inductive Status where
  /-- the session runs -/
  | running
  /-- a fatal condition has been raised; no Cycle and no Tick has a step (40_cycle_and_dispatch R113) -/
  | faulted (f : Fault)
  deriving DecidableEq, Repr

/-- The three kinds of event that change the machine (00_scope R8), with the host's inputs (R9). -/
inductive HostEvent where
  /-- `Reset(image)` (70_reset_and_hazards R250) -/
  | reset (image : List Byte)
  /-- `Cycle(keys, draw)` (40_cycle_and_dispatch R100) -/
  | cycle (keys : KeySet) (draw : Byte)
  /-- `Tick` (40_cycle_and_dispatch R110) -/
  | tick
  deriving DecidableEq, Repr

/-- `MEM` as the cells that differ from the reset contents, in rising order of address (10_state R32; log 17). -/
abbrev Memory := List Host.Cell

/-- The whole state of the machine: the spec's own fields, then three of the model's (`draw`, `pending`, `freeIdx`;
log 1, 3). -/
structure State where
  /-- `V[0]` to `V[15]` (10_state R20) -/
  v : Vector Byte 16
  /-- `I` (10_state R25) -/
  index : Word
  /-- `PC` (10_state R24) -/
  pc : Word
  /-- `SP`, 0 to 64, the next free slot (10_state R26) -/
  sp : Fin 65
  /-- `STACK[0]` to `STACK[63]` (10_state R29) -/
  stack : Vector Word 64
  /-- `DT` (10_state R27) -/
  dt : Byte
  /-- `ST` (10_state R27) -/
  st : Byte
  /-- `FB` (10_state R30) -/
  fb : Framebuffer
  /-- `KEYS`, the set supplied for the current cycle (10_state R31) -/
  keys : KeySet
  /-- `MEM` (10_state R32) -/
  mem : Memory
  /-- `STATUS` (10_state R28) -/
  status : Status
  /-- the model's own: the byte supplied with the current Cycle event, which only RND reads (00_scope R9; log 3) -/
  draw : Byte
  /-- the model's own: the events the host will issue, next first (00_scope R8; log 1) -/
  pending : List HostEvent
  /-- the model's own: the unscripted steps so far, the argument of the free inputs (log 1) -/
  freeIdx : Nat
  deriving DecidableEq, Repr

/-- The machine right after `Reset` of the empty image (10_state R40): font and zeros in memory, nothing pending. -/
def State.reset : State where
  v := Vector.replicate 16 0
  index := 0
  pc := 0x0200
  sp := 0
  stack := Vector.replicate 64 0
  dt := 0
  st := 0
  fb := Vector.replicate 32 (Vector.replicate 64 false)
  keys := 0
  mem := []
  status := .running
  draw := 0
  pending := []
  freeIdx := 0

end Sys2Proof.Machine
end

