-- ==== Sys2Proof/Machine/Ops.lean ====
section
/-! DEFINITION. The named operations: memory, register and timer writes, the stack, fetching an instruction, raising a
fault, and building the state of a new session. -/

namespace Sys2Proof.Machine

/-! ### Memory (20_memory) -/

/-- The effective address of an unbounded address (20_memory R55, D6; log 8). -/
def ea (a : Nat) : Nat := a % Config.memSize

/-- What an unlisted address reads as: the reset contents of an empty image, font and zeros (10_state R40). -/
def resetByte (a : Nat) : Byte :=
  if Config.fontBase ≤ a ∧ a < Config.fontEnd then font.getD (a - Config.fontBase) 0 else 0

/-- The byte at an effective address. -/
def Memory.read : Memory → Nat → Byte
  | [], a => resetByte a
  | c :: rest, a => if c.1 = a then c.2 else Memory.read rest a

/-- Writing one byte at an effective address, keeping the cells in order and dropping one that reads as at reset. -/
def Memory.write : Memory → Nat → Byte → Memory
  | [], a, b => if b = resetByte a then [] else [(a, b)]
  | c :: rest, a, b =>
    if a < c.1 then (if b = resetByte a then c :: rest else (a, b) :: c :: rest)
    else if c.1 = a then (if b = resetByte a then rest else (a, b) :: rest)
    else c :: Memory.write rest a b

/-- The canonical form: addresses of the space, strictly rising, and no cell that reads as at reset. -/
abbrev Memory.wf (m : Memory) : Prop :=
  m.Pairwise (fun c d => c.1 < d.1) ∧ ∀ c ∈ m, c.1 < Config.memSize ∧ c.2 ≠ resetByte c.1

/-- Writing bytes at consecutive addresses from `a` up, no address reduced: how Reset places the image. -/
def Memory.writeList (m : Memory) (a : Nat) : List Byte → Memory
  | [] => m
  | b :: bs => (Memory.writeList m (a + 1) bs).write a b

/-- `MemRead(a, 1)` (00_scope R12, 20_memory R55). -/
def State.readByte (s : State) (a : Nat) : Byte := s.mem.read (ea a)

/-- `MemRead(a, 2)`, the byte at the lower address high (00_scope R12, 20_memory R52). -/
def State.readWord (s : State) (a : Nat) : Word := wordOfBytes (s.readByte a) (s.readByte (a + 1))

/-- `MemWrite(a, 1, b)` (00_scope R12, 20_memory R55); no address is protected (R51, D20; log 13). -/
def State.writeByte (s : State) (a : Nat) (b : Byte) : State := { s with mem := s.mem.write (ea a) b }

/-- Writing bytes one after the other at `a`, `a + 1` and so on, in ascending order (20_memory R58). -/
def State.writeBytes (s : State) (a : Nat) : List Byte → State
  | [] => s
  | b :: bs => (s.writeByte a b).writeBytes (a + 1) bs

/-- The word fetched at `PC` (20_memory R52, R54, R55; 40_cycle_and_dispatch R101). -/
def State.fetchWord (s : State) : Word := s.readWord s.pc.toNat

/-! ### Registers -/

/-- `V[r] <- b` (10_state R20). -/
def State.setReg (s : State) (r : RegNum) (b : Byte) : State := { s with v := s.v.set r b }

/-- `I <- w` (10_state R25). -/
def State.setIndex (s : State) (w : Word) : State := { s with index := w }

/-- `PC <- w` (10_state R24). -/
def State.setPc (s : State) (w : Word) : State := { s with pc := w }

/-- `DT <- b` (10_state R27). -/
def State.setDt (s : State) (b : Byte) : State := { s with dt := b }

/-- `ST <- b` (10_state R27). -/
def State.setSt (s : State) (b : Byte) : State := { s with st := b }

/-- The framebuffer as a whole (10_state R30). -/
def State.setFb (s : State) (f : Framebuffer) : State := { s with fb := f }

/-! ### Faults (60_exceptions R221) -/

/-- `raise F(info)`: the event ends at once, with the fault record and no state (R221, D17; log 11). -/
def raise (f : Fault) : Host.Outcome State Fault Refusal := .fault f

/-- The code of a fault (60_exceptions R220, D17). -/
def Fault.code : Fault → Nat
  | .decodeError _ _ => 1
  | .stackOverflow _ => 2
  | .stackUnderflow _ => 3
  | .loadOverflow _ => 4

/-! ### The stack (10_state R29) -/

/-- Pushing `PC` and going to `target`; StackOverflow when all 64 entries are taken (41_control_flow R122). -/
def pushAndJump (target : Word) (s : State) : Host.Outcome State Fault Refusal :=
  if h : s.sp.val = Config.stackDepth then raise (.stackOverflow s.pc)
  else .next { s with
    stack := s.stack.set s.sp.val s.pc (by have := s.sp.isLt; simp only [Config.stackDepth] at h; omega)
    sp := ⟨s.sp.val + 1, by have := s.sp.isLt; simp only [Config.stackDepth] at h; omega⟩
    pc := target }

/-- Popping an entry into `PC`, the entry left in place; StackUnderflow when there is none (41_control_flow R120). -/
def popToPc (s : State) : Host.Outcome State Fault Refusal :=
  if h : s.sp.val = 0 then raise (.stackUnderflow s.pc)
  else .next { s with
    sp := ⟨s.sp.val - 1, by have := s.sp.isLt; omega⟩
    pc := s.stack[s.sp.val - 1]'(by have := s.sp.isLt; omega) }

/-! ### Timers (40_cycle_and_dispatch R110) -/

/-- A timer after `k` ticks: toward zero, never below. -/
def countDown (t : Byte) (k : Nat) : Byte := BitVec.ofNat 8 (t.toNat - k)

/-- `k` ticks in a row: both timers move on each, and nothing else does (R110). -/
def State.ticks (s : State) (k : Nat) : State := { s with dt := countDown s.dt k, st := countDown s.st k }

/-- The change of state that one `Tick` makes (R110). -/
def State.tick (s : State) : State :=
  { s with dt := if s.dt > 0 then s.dt - 1 else s.dt, st := if s.st > 0 then s.st - 1 else s.st }

/-! ### A new session (70_reset_and_hazards R250) -/

/-- The machine that `Reset(image)` creates: Running with the image at 0x200, or Faulted when it does not fit (R250,
R251). What else a faulted machine holds is not defined and no claim reads it (60_exceptions R221). -/
def State.ofImage (image : List Byte) : State :=
  if image.length ≤ Config.maxImage then
    { State.reset with mem := State.reset.mem.writeList Config.loadAddr image }
  else { State.reset with status := .faulted (.loadOverflow image.length) }

end Sys2Proof.Machine
end

