-- ==== Sys2Proof/Machine/Operands.lean ====
section
/-! DEFINITION. The operand forms: a register, a run of registers, memory at `I`, an immediate widened to 16 bits, a key,
a framebuffer cell, and the extra advance of a skip. -/

namespace Sys2Proof.Machine

/-- `V[r]` (10_state R20). A meaning reads its operands from the state it is given, so they are latched before its own
writes (40_cycle_and_dispatch R105, D8; log 10). -/
def State.reg (s : State) (r : RegNum) : Byte := s.v[r]

/-- The registers `V[0]` to `V[x]` by field, in ascending order (43_index_memory R174, R175; D11; log 12). -/
def regsUpTo (x : RegNum) : List RegNum := (List.finRange 16).filter (fun k => k ≤ x)

/-- The unbounded address `I + k` (20_memory R55). -/
def State.indexAddr (s : State) (k : Nat) : Nat := s.index.toNat + k

/-- `zext_16(nnn)` (30_encoding R73). -/
def zextAddr (nnn : BitVec 12) : Word := nnn.setWidth 16

/-- The extra advance of the skip group: 2 more when the condition holds (41_control_flow R123 to R126). -/
def State.skipIf (s : State) (b : Bool) : State := s.setPc (if b then s.pc + 2 else s.pc)

/-- Whether the key a register value names is pressed; a value above 15 names no key (45_keys_timers R200, D12;
log 14). -/
def keyPressed (keys : KeySet) (vx : Byte) : Bool := decide (vx.toNat ≤ 15) && keys.getLsbD vx.toNat

/-- The lowest-numbered pressed key, if any is pressed (45_keys_timers R203). -/
def lowestKey (keys : KeySet) : Option (Fin 16) := (List.finRange 16).find? (fun k => keys.getLsbD k)

/-- `FB[px, py]` with px the column and py the row, each reduced modulo its dimension (10_state R30, 44_display R191). -/
def pixel (f : Framebuffer) (px py : Nat) : Bool :=
  (f[py % Config.fbHeight]'(Nat.mod_lt _ (by decide)))[px % Config.fbWidth]'(Nat.mod_lt _ (by decide))

/-- `FB[px, py] <- b`, coordinates reduced as in `pixel`. -/
def setPixel (f : Framebuffer) (px py : Nat) (b : Bool) : Framebuffer :=
  f.set (py % Config.fbHeight)
    ((f[py % Config.fbHeight]'(Nat.mod_lt _ (by decide))).set (px % Config.fbWidth) b (Nat.mod_lt _ (by decide)))
    (Nat.mod_lt _ (by decide))

end Sys2Proof.Machine
end

