-- ==== Sys2Proof/Machine/Flags.lean ====
section
/-! DEFINITION. The flag computations: what the six instructions of 10_state R23 write to VF. -/

namespace Sys2Proof.Machine

/-- A flag as the byte stored in VF, 0x00 or 0x01 (10_state R22). -/
def flagByte (b : Bool) : Byte := if b then 1 else 0

/-- The carry of ADD Vx, Vy: the exact sum is over 255 (42_register_alu R147). -/
def carry (a b : Byte) : Bool := decide (a.toNat + b.toNat > 255)

/-- The flag of a subtraction `a - b`: strictly greater, so 0 on equal operands (42_register_alu R146, R148, R150). -/
def noBorrow (a b : Byte) : Bool := decide (a.toNat > b.toNat)

/-- The bit shifted out by SHR (42_register_alu R149). -/
def lowBit (a : Byte) : Bool := a.getLsbD 0

/-- The bit shifted out by SHL (42_register_alu R151). -/
def highBit (a : Byte) : Bool := a.getLsbD 7

/-- `V[15] <- flag` (10_state R22). -/
def State.setFlag (s : State) (b : Bool) : State := s.setReg Config.flagReg (flagByte b)

end Sys2Proof.Machine
end

