-- ==== Sys2Proof/Machine/Alu.lean ====
section
/-! DEFINITION. The register file and ALU instructions (42_register_alu). Writes are made in the order the spec lists
them and the later one stands, which matters when `x` is 0xF (40_cycle_and_dispatch R105, D8; log 10). -/

namespace Sys2Proof.Machine

/-- LD Vx, kk, R140. -/
def execLdImm (x : RegNum) (kk : Byte) (s : State) : Host.Outcome State Fault Refusal := .next (s.setReg x kk)

/-- ADD Vx, kk, R141: modulo 256, no flag. -/
def execAddImm (x : RegNum) (kk : Byte) (s : State) : Host.Outcome State Fault Refusal :=
  .next (s.setReg x (s.reg x + kk))

/-- LD Vx, Vy, R142. -/
def execLdReg (x y : RegNum) (s : State) : Host.Outcome State Fault Refusal := .next (s.setReg x (s.reg y))

/-- OR Vx, Vy, R143: no flag (D9; log 9). -/
def execOrReg (x y : RegNum) (s : State) : Host.Outcome State Fault Refusal := .next (s.setReg x (s.reg x ||| s.reg y))

/-- AND Vx, Vy, R144: no flag (D9; log 9). -/
def execAndReg (x y : RegNum) (s : State) : Host.Outcome State Fault Refusal := .next (s.setReg x (s.reg x &&& s.reg y))

/-- XOR Vx, Vy, R145: no flag (D9; log 9). -/
def execXorReg (x y : RegNum) (s : State) : Host.Outcome State Fault Refusal := .next (s.setReg x (s.reg x ^^^ s.reg y))

/-- ADD Vx, Vy, R147: the result, then the carry. -/
def execAddReg (x y : RegNum) (s : State) : Host.Outcome State Fault Refusal :=
  .next ((s.setReg x (s.reg x + s.reg y)).setFlag (carry (s.reg x) (s.reg y)))

/-- SUB Vx, Vy, R148: the flag, then the result. -/
def execSubReg (x y : RegNum) (s : State) : Host.Outcome State Fault Refusal :=
  .next ((s.setFlag (noBorrow (s.reg x) (s.reg y))).setReg x (s.reg x - s.reg y))

/-- SHR Vx, R149: the flag, then the result. -/
def execShr (x : RegNum) (s : State) : Host.Outcome State Fault Refusal :=
  .next ((s.setFlag (lowBit (s.reg x))).setReg x (s.reg x >>> 1))

/-- SUBN Vx, Vy, R150: the flag, then the result. -/
def execSubnReg (x y : RegNum) (s : State) : Host.Outcome State Fault Refusal :=
  .next ((s.setFlag (noBorrow (s.reg y) (s.reg x))).setReg x (s.reg y - s.reg x))

/-- SHL Vx, R151: the flag, then the result. -/
def execShl (x : RegNum) (s : State) : Host.Outcome State Fault Refusal :=
  .next ((s.setFlag (highBit (s.reg x))).setReg x (s.reg x <<< 1))

/-- RND Vx, kk, R152: the host's byte for this cycle, masked (D21; log 1). -/
def execRnd (x : RegNum) (kk : Byte) (s : State) : Host.Outcome State Fault Refusal :=
  .next (s.setReg x (s.draw &&& kk))

end Sys2Proof.Machine
end

