-- ==== Sys2Proof/Machine/Control.lean ====
section
/-! DEFINITION. The control-flow instructions (41_control_flow). `PC` already holds a + 2 in every meaning
(40_cycle_and_dispatch R102). -/

namespace Sys2Proof.Machine

/-- RET, R120. -/
def execRet (s : State) : Host.Outcome State Fault Refusal := popToPc s

/-- JP nnn, R121. -/
def execJp (nnn : BitVec 12) (s : State) : Host.Outcome State Fault Refusal := .next (s.setPc (zextAddr nnn))

/-- CALL nnn, R122. -/
def execCall (nnn : BitVec 12) (s : State) : Host.Outcome State Fault Refusal := pushAndJump (zextAddr nnn) s

/-- SE Vx, kk, R123. -/
def execSeImm (x : RegNum) (kk : Byte) (s : State) : Host.Outcome State Fault Refusal :=
  .next (s.skipIf (s.reg x == kk))

/-- SNE Vx, kk, R124. -/
def execSneImm (x : RegNum) (kk : Byte) (s : State) : Host.Outcome State Fault Refusal :=
  .next (s.skipIf (s.reg x != kk))

/-- SE Vx, Vy, R125. -/
def execSeReg (x y : RegNum) (s : State) : Host.Outcome State Fault Refusal :=
  .next (s.skipIf (s.reg x == s.reg y))

/-- SNE Vx, Vy, R126. -/
def execSneReg (x y : RegNum) (s : State) : Host.Outcome State Fault Refusal :=
  .next (s.skipIf (s.reg x != s.reg y))

/-- JP V0, nnn, R127: the sum is not reduced to 12 bits. -/
def execJpV0 (nnn : BitVec 12) (s : State) : Host.Outcome State Fault Refusal :=
  .next (s.setPc (zextAddr nnn + (s.reg 0).setWidth 16))

end Sys2Proof.Machine
end

