-- ==== Sys2Proof/Machine/Display.lean ====
section
/-! DEFINITION. The display instructions (44_display): clear screen and the sprite blitter. -/

namespace Sys2Proof.Machine

/-- Every cell unset (44_display R190). -/
def blankScreen : Framebuffer := Vector.replicate 32 (Vector.replicate 64 false)

/-- CLS, R190. -/
def execCls (s : State) : Host.Outcome State Fault Refusal := .next (s.setFb blankScreen)

/-- One column of one sprite row: when its bit is 1, XOR the cell, and record a collision when the cell was set. Column
c takes bit 7 - c (R191, D14; log 15). The pair is the framebuffer and whether any cell went from set to unset. -/
def blitColumn (b : Byte) (px py : Nat) (acc : Framebuffer × Bool) (c : Nat) : Framebuffer × Bool :=
  if b.getLsbD (7 - c) then
    (setPixel acc.1 (px + c) py (!pixel acc.1 (px + c) py), acc.2 || pixel acc.1 (px + c) py)
  else acc

/-- The eight columns of one sprite row, the loop over c of R191. -/
def blitRow (b : Byte) (px py : Nat) (acc : Framebuffer × Bool) : Framebuffer × Bool :=
  (List.range 8).foldl (blitColumn b px py) acc

/-- The rows of a sprite from its row bytes, the first at row `py`: the loop over r of R191. Coordinates are reduced
where a cell is read or written, so each pixel wraps by itself (R191, R192). -/
def blitRows (px : Nat) : Nat → List Byte → Framebuffer × Bool → Framebuffer × Bool
  | _, [], acc => acc
  | py, b :: bs, acc => blitRows px (py + 1) bs (blitRow b px py acc)

/-- The `n` row bytes of a sprite, from `I` up (R191). -/
def State.spriteRows (s : State) (n : Nat) : List Byte := (List.range n).map (fun r => s.readByte (s.indexAddr r))

/-- DRW Vx, Vy, n, R191: the origin from the old `V[x]` and `V[y]` (R105, D8; log 10), VF always written. -/
def execDrw (x y : RegNum) (n : Nat) (s : State) : Host.Outcome State Fault Refusal :=
  let ox := (s.reg x).toNat % Config.fbWidth
  let oy := (s.reg y).toNat % Config.fbHeight
  let drawn := blitRows ox oy (s.spriteRows n) (s.fb, false)
  .next ((s.setFb drawn.1).setFlag drawn.2)

end Sys2Proof.Machine
end

