-- ==== Sys2Proof/Machine/IndexMemory.lean ====
section
/-! DEFINITION. The index-register and memory instructions (43_index_memory). `I` is written by the first three only
(10_state R25, D10; log 9). -/

namespace Sys2Proof.Machine

/-- LD I, nnn, R170. -/
def execLdI (nnn : BitVec 12) (s : State) : Host.Outcome State Fault Refusal := .next (s.setIndex (zextAddr nnn))

/-- ADD I, Vx, R171: modulo 65536, no flag. -/
def execAddI (x : RegNum) (s : State) : Host.Outcome State Fault Refusal :=
  .next (s.setIndex (s.index + (s.reg x).setWidth 16))

/-- LD F, Vx, R172: the register value whole, not reduced to a digit. -/
def execLdFont (x : RegNum) (s : State) : Host.Outcome State Fault Refusal :=
  .next (s.setIndex (BitVec.ofNat 16 (Config.fontBase + Config.glyphBytes * (s.reg x).toNat)))

/-- The hundreds, tens and units digits of a byte (R173). -/
def bcdDigits (b : Byte) : List Byte :=
  [BitVec.ofNat 8 (b.toNat / 100), BitVec.ofNat 8 (b.toNat / 10 % 10), BitVec.ofNat 8 (b.toNat % 10)]

/-- LD B, Vx, R173: three bytes from `I` up. -/
def execLdBcd (x : RegNum) (s : State) : Host.Outcome State Fault Refusal :=
  .next (s.writeBytes (s.indexAddr 0) (bcdDigits (s.reg x)))

/-- LD [I], Vx, R174: `V[0]` to `V[x]` to memory from `I` up. -/
def execDump (x : RegNum) (s : State) : Host.Outcome State Fault Refusal :=
  .next (s.writeBytes (s.indexAddr 0) ((regsUpTo x).map s.reg))

/-- The loop of R175: each register of the list from memory at `I` plus its number. -/
def State.loadRegs (s : State) (ks : List RegNum) : State :=
  ks.foldl (fun t k => t.setReg k (t.readByte (t.indexAddr k))) s

/-- LD Vx, [I], R175: `V[0]` to `V[x]` from memory from `I` up. -/
def execLoad (x : RegNum) (s : State) : Host.Outcome State Fault Refusal := .next (s.loadRegs (regsUpTo x))

end Sys2Proof.Machine
end

