-- ==== Sys2Proof/Machine/KeysTimers.lean ====
section
/-! DEFINITION. The key and timer instructions (45_keys_timers). -/

namespace Sys2Proof.Machine

/-- SKP Vx, R200. -/
def execSkp (x : RegNum) (s : State) : Host.Outcome State Fault Refusal :=
  .next (s.skipIf (keyPressed s.keys (s.reg x)))

/-- SKNP Vx, R201. -/
def execSknp (x : RegNum) (s : State) : Host.Outcome State Fault Refusal :=
  .next (s.skipIf (!keyPressed s.keys (s.reg x)))

/-- LD Vx, DT, R202. -/
def execLdVxDt (x : RegNum) (s : State) : Host.Outcome State Fault Refusal := .next (s.setReg x s.dt)

/-- The effect of LD Vx, K: back to its own address while no key is pressed, else the lowest pressed key (R203). -/
def State.waitForKey (s : State) (x : RegNum) : State :=
  match lowestKey s.keys with
  | none => s.setPc (s.pc - 2)
  | some k => s.setReg x (BitVec.ofNat 8 k.val)

/-- LD Vx, K, R203. -/
def execLdVxKey (x : RegNum) (s : State) : Host.Outcome State Fault Refusal := .next (s.waitForKey x)

/-- LD DT, Vx, R204. -/
def execLdDtVx (x : RegNum) (s : State) : Host.Outcome State Fault Refusal := .next (s.setDt (s.reg x))

/-- LD ST, Vx, R205. -/
def execLdStVx (x : RegNum) (s : State) : Host.Outcome State Fault Refusal := .next (s.setSt (s.reg x))

end Sys2Proof.Machine
end

