-- ==== Sys2Proof/Machine/Events.lean ====
section
/-! DEFINITION. The three kinds of event that change the machine (00_scope R8), each as a function of the state. -/

namespace Sys2Proof.Machine

/-- `Cycle(keys, draw)` on a running machine: fetch, advance `PC` by 2, decode, execute; DecodeError when the word is no
instruction (40_cycle_and_dispatch R100, R102, R104; 60_exceptions R222). -/
def runCycle (keys : KeySet) (draw : Byte) (s : State) : Host.Outcome State Fault Refusal :=
  match decodeWord s.fetchWord with
  | .ok i => exec i { s with keys := keys, draw := draw, pc := s.pc + 2 }
  | .error _ => raise (.decodeError s.pc s.fetchWord)

/-- What a Cycle and a Tick require: `STATUS = Running`. A faulted machine has no such step: the model stops with the
recorded fault again (40_cycle_and_dispatch R113, D17; log 11). -/
def whenRunning (s : State) (event : State → Host.Outcome State Fault Refusal) : Host.Outcome State Fault Refusal :=
  match s.status with
  | .running => event s
  | .faulted f => .fault f

/-- `Cycle(keys, draw)` (40_cycle_and_dispatch R100). -/
def cycleEvent (keys : KeySet) (draw : Byte) (s : State) : Host.Outcome State Fault Refusal :=
  whenRunning s (runCycle keys draw)

/-- `Tick` (40_cycle_and_dispatch R110). -/
def tickEvent (s : State) : Host.Outcome State Fault Refusal := whenRunning s (fun t => .next t.tick)

/-- `Reset(image)`: a new session, nothing of the old one kept, or LoadOverflow (70_reset_and_hazards R250, R251).
`pending` and `freeIdx` describe the host, not the session, and stay. -/
def resetEvent (image : List Byte) (s : State) : Host.Outcome State Fault Refusal :=
  match (State.ofImage image).status with
  | .running => .next { State.ofImage image with pending := s.pending, freeIdx := s.freeIdx }
  | .faulted f => raise f

/-- The ticks that the host issues right after a completed cycle (40_cycle_and_dispatch R112). -/
def thenTicks (k : Nat) : Host.Outcome State Fault Refusal → Host.Outcome State Fault Refusal
  | .next t => .next (t.ticks k)
  | .fault f => .fault f
  | .refused r => .refused r

/-- The unscripted step: a Cycle with free inputs, then a free number of ticks (00_scope R6, D1, D16, D21; log 1, 2). -/
def freeEvent (s : State) : Host.Outcome State Fault Refusal :=
  thenTicks (Config.freeTicks s.freeIdx)
    (cycleEvent (Config.freeKeys s.freeIdx) (Config.freeDraw s.freeIdx) { s with freeIdx := s.freeIdx + 1 })

/-- One event: the next pending one, or the unscripted step when none is pending (00_scope R8; log 1). -/
def nextEvent (s : State) : Host.Outcome State Fault Refusal :=
  match s.pending with
  | .reset image :: rest => resetEvent image { s with pending := rest }
  | .cycle keys draw :: rest => cycleEvent keys draw { s with pending := rest }
  | .tick :: rest => tickEvent { s with pending := rest }
  | [] => freeEvent s

/-- The pending events, dropped unless the first of them is a Cycle: what lets the very next step fetch (log 4). -/
def cycleFirst : List HostEvent → List HostEvent
  | .cycle keys draw :: rest => .cycle keys draw :: rest
  | .tick :: _ => []
  | .reset _ :: _ => []
  | [] => []

/-- An instruction's word stored where the next Cycle fetches, and the machine ready to run that Cycle (log 4). -/
def placeWord (s : State) (w : Word) : State :=
  { s.writeBytes s.pc.toNat (bytesOfWord w) with status := .running, pending := cycleFirst s.pending }

end Sys2Proof.Machine
end

