-- ==== Sys2Proof/Machine/Step.lean ====
section
/-! DEFINITION. One step of the machine, which is one event (00_scope R8), and placing a table row's word where the
next step fetches. -/

namespace Sys2Proof.Machine

/-- One step: one event (00_scope R8). -/
def step (s : State) : Host.Outcome State Fault Refusal := nextEvent s

/-- `s` with the instruction whose bits are `w` (the bits above `nbits` zero) where the next step fetches it, high byte
at the lower address (20_memory R52); the machine is Running and a Cycle is the next event (log 4). -/
def State.withFetchWord (s : State) (nbits w : Nat) : State := placeWord s (BitVec.ofNat 16 (w % 2 ^ nbits))

end Sys2Proof.Machine
end

