-- ==== Sys2Proof/Safety.lean ====
section
/-! DEFINITION. The terms that claims use: the invariant of the machine, what each instruction may write (10_state R41),
where each leaves `PC` (10_state R24), the bits of a sprite, and the self loop that ends a program (70 R262). -/

namespace Sys2Proof.Machine

/-- The invariant that every step keeps: memory is in canonical form, so that equal memories are equal data (log 17). -/
abbrev State.Inv (s : State) : Prop := Memory.wf s.mem

/-- Whether an instruction may write register `r`: the columns V[x] and VF of 10_state R41, and R23. -/
def writesReg (r : RegNum) : Instr → Bool
  | .cls => false
  | .ret => false
  | .jp _ => false
  | .call _ => false
  | .seImm _ _ => false
  | .sneImm _ _ => false
  | .seReg _ _ => false
  | .ldImm x _ => r == x
  | .addImm x _ => r == x
  | .ldReg x _ => r == x
  | .orReg x _ => r == x
  | .andReg x _ => r == x
  | .xorReg x _ => r == x
  | .addReg x _ => r == x || r == Config.flagReg
  | .subReg x _ => r == x || r == Config.flagReg
  | .shr x => r == x || r == Config.flagReg
  | .subnReg x _ => r == x || r == Config.flagReg
  | .shl x => r == x || r == Config.flagReg
  | .sneReg _ _ => false
  | .ldI _ => false
  | .jpV0 _ => false
  | .rnd x _ => r == x
  | .drw _ _ _ => r == Config.flagReg
  | .skp _ => false
  | .sknp _ => false
  | .ldVxDt x => r == x
  | .ldVxKey x => r == x
  | .ldDtVx _ => false
  | .ldStVx _ => false
  | .addI _ => false
  | .ldFont _ => false
  | .ldBcd _ => false
  | .dump _ => false
  | .load x => decide (r ≤ x)

/-- The three writers of `I` (10_state R25, R41). -/
def writesIndex (i : Instr) : Bool :=
  match i with
  | .ldI _ | .addI _ | .ldFont _ => true
  | _ => false

/-- The two users of `SP` (10_state R26, R41). -/
def usesStack (i : Instr) : Bool :=
  match i with
  | .call _ | .ret => true
  | _ => false

/-- The two writers of `FB` (10_state R30, R41). -/
def writesScreen (i : Instr) : Bool :=
  match i with
  | .cls | .drw _ _ _ => true
  | _ => false

/-- How many bytes from `I` up an instruction stores to (10_state R41, 20_memory R57). -/
def storedBytes (i : Instr) : Nat :=
  match i with
  | .ldBcd _ => 3
  | .dump x => x.val + 1
  | _ => 0

/-- Where an instruction that completes leaves `PC`, `a` being its own address: the table of 10_state R24 (and
41_control_flow R128). -/
def pcAfter (i : Instr) (s : State) (a : Word) : Word :=
  match i with
  | .jp nnn | .call nnn => zextAddr nnn
  | .jpV0 nnn => BitVec.ofNat 16 (nnn.toNat + (s.reg 0).toNat)
  | .ret => s.stack.getD (s.sp.val - 1) 0
  | .seImm x kk => if s.reg x = kk then a + 4 else a + 2
  | .sneImm x kk => if s.reg x = kk then a + 2 else a + 4
  | .seReg x y => if s.reg x = s.reg y then a + 4 else a + 2
  | .sneReg x y => if s.reg x = s.reg y then a + 2 else a + 4
  | .skp x => if keyPressed s.keys (s.reg x) then a + 4 else a + 2
  | .sknp x => if keyPressed s.keys (s.reg x) then a + 2 else a + 4
  | .ldVxKey _ => if s.keys = 0 then a else a + 2
  | _ => a + 2

/-- The bit that a sprite of `n` rows at memory address `base` puts on the cell (px, py) when its origin is (ox, oy),
both modulo the dimensions: column offset c takes bit 7 - c of row byte r (44_display R191, D14; log 15). -/
def spriteBit (s : State) (base n ox oy px py : Nat) : Bool :=
  let c := (px + Config.fbWidth - ox % Config.fbWidth) % Config.fbWidth
  let r := (py + Config.fbHeight - oy % Config.fbHeight) % Config.fbHeight
  decide (c < 8) && decide (r < n) && (s.readByte (base + r)).getLsbD (7 - c)

/-- The same change made to the next state of an outcome; a fault or a refusal is left as it is. -/
def onNext (f : State → State) : Host.Outcome State Fault Refusal → Host.Outcome State Fault Refusal
  | .next t => .next (f t)
  | .fault e => .fault e
  | .refused r => .refused r

/-- Instructions executed one after the other, stopping at the first that faults. -/
def execAll : List Instr → State → Host.Outcome State Fault Refusal
  | [], s => .next s
  | i :: is, s =>
    match exec i s with
    | .next t => execAll is t
    | .fault e => .fault e
    | .refused r => .refused r

/-- The word at `PC` is a jump to `PC` itself (70_reset_and_hazards R262, D22; log 18). -/
def State.selfJump (s : State) : Prop := ∃ nnn, decodeWord s.fetchWord = .ok (.jp nnn) ∧ zextAddr nnn = s.pc

end Sys2Proof.Machine
end

