-- ==== Sys2Proof/Certificates/Slice0/Obligations.lean ====
section
/-! DEFINITION. The statements for the provers. In `exec i s` the state's `pc` already holds the instruction's address
plus 2 (40_cycle_and_dispatch R102). "The model's choice" marks a clause that rests on a log entry and on no rule. -/

open Sys2Proof Sys2Proof.Machine

/-! ### Encoding -/

/-- Decoding the bytes of a well-formed instruction gives it back, with the rest of the bytes, for every value of every
operand (30_encoding R70 to R73, R78; the opcode numbers are the spec's D2, log 5). -/
def Obligations.DecodeInvertsEncode : Prop :=
  ∀ (i : Instr) (rest : List Byte), i.wellFormed = true → decode (encode i ++ rest) = .ok (i, rest)

/-- The two-level dispatcher of R104 and the mask and match table of R78 give every word the same instruction, or none
(numbers: D2, log 5; secondary keys: D3, log 6). -/
def Obligations.DecoderIsTheMaskMatchTable : Prop :=
  ∀ w : Word, (decodeWord w).toOption = (opcodeTable.find? (fun r => r.holds w)).map (fun r => r.read w)

/-- The rows of R78 are disjoint: no word is the instruction of two of them. -/
def Obligations.AtMostOneRowHolds : Prop :=
  opcodeTable.length = 34 ∧ opcodeTable.Pairwise (fun r q => ∀ w : Word, ¬ (r.holds w = true ∧ q.holds w = true))

/-- The illegal words are exactly those of R80, and the decoder names the primary code and the byte it rejects. -/
def Obligations.IllegalWordsAreRejected : Prop :=
  ∀ w : Word, decodeWord w = .error (.noHandler (fieldP w) (fieldKk w)) ↔
    (fieldP w = 0x0 ∧ fieldKk w ≠ 0xE0 ∧ fieldKk w ≠ 0xEE) ∨
    (fieldP w = 0x8 ∧ fieldN w ∈ [0x8, 0x9, 0xA, 0xB, 0xC, 0xD, 0xF]) ∨
    (fieldP w = 0xE ∧ fieldKk w ≠ 0x9E ∧ fieldKk w ≠ 0xA1) ∨
    (fieldP w = 0xF ∧ fieldKk w ∉ [0x07, 0x0A, 0x15, 0x18, 0x1E, 0x29, 0x33, 0x55, 0x65])

/-- R80's count: 13872 of the 65536 words are illegal. -/
def Obligations.IllegalWordCount : Prop :=
  ((List.range 65536).filter (fun w => !(decodeWord (BitVec.ofNat 16 w)).isOk)).length = 13872

/-- The ignored bits of R79: bits 11 to 8 of CLS and RET, the low nibble of 5XY- and 9XY-, `y` of the shifts. -/
def Obligations.IgnoredBitsDoNotMatter : Prop :=
  (∀ x, decodeWord (wordXK 0x0 x 0xE0) = .ok .cls ∧ decodeWord (wordXK 0x0 x 0xEE) = .ok .ret) ∧
  (∀ x y n, decodeWord (wordXYN 0x5 x y n) = .ok (.seReg x y) ∧ decodeWord (wordXYN 0x9 x y n) = .ok (.sneReg x y)) ∧
  (∀ x y, decodeWord (wordXYN 0x8 x y 0x6) = .ok (.shr x) ∧ decodeWord (wordXYN 0x8 x y 0xE) = .ok (.shl x))

/-- Words written out from the patterns of R78 and from the vectors V-E decode as the spec says. -/
def Obligations.WrittenOutWordsDecode : Prop :=
  decodeWord 0b0000000011100000 = .ok .cls ∧ decodeWord 0b0010101010111100 = .ok (.call 0xABC) ∧
  decodeWord 0b0110001101000001 = .ok (.ldImm 3 0x41) ∧ decodeWord 0b1000101010110111 = .ok (.subnReg 0xA 0xB) ∧
  decodeWord 0b1010001100000000 = .ok (.ldI 0x300) ∧ decodeWord 0b1101001101000101 = .ok (.drw 3 4 5) ∧
  decodeWord 0b1110000110011110 = .ok (.skp 1) ∧ decodeWord 0b1111000101100101 = .ok (.load 1) ∧
  decodeWord 0b1111111100001010 = .ok (.ldVxKey 0xF) ∧ (decodeWord 0b0000000000000000).isOk = false ∧
  (decodeWord 0b1110000100001110).isOk = false

/-- A decoded instruction is well formed, and its encoding is the word with its ignored bits cleared: no operand bit is
dropped, and the fixed bits are those of its row. -/
def Obligations.DecodedWordsEncodeBack : Prop :=
  ∀ (w : Word) (i : Instr), decodeWord w = .ok i →
    i.wellFormed = true ∧ ∃ r ∈ opcodeTable, r.holds w = true ∧ encodeWord i = w &&& (r.mask ||| r.operands)

/-- The six fields are the bit maskings of R71. -/
def Obligations.FieldsAreBitMasks : Prop :=
  ∀ w : Word,
    (fieldP w).setWidth 16 = (w >>> 12) &&& 0xF ∧ BitVec.ofNat 16 (fieldX w).val = (w >>> 8) &&& 0xF ∧
    BitVec.ofNat 16 (fieldY w).val = (w >>> 4) &&& 0xF ∧ (fieldN w).setWidth 16 = w &&& 0x000F ∧
    (fieldKk w).setWidth 16 = w &&& 0x00FF ∧ (fieldNnn w).setWidth 16 = w &&& 0x0FFF

/-! ### The cycle -/

/-- When a Cycle is the next event of a running machine and the two bytes at `PC`, addresses modulo 4096, decode to `i`,
the step is `exec i` with KEYS and `draw` supplied and `PC` advanced by 2 (R100, R102; `pending` and `draw` are the
model's, log 1, 3). -/
def Obligations.StepRunsTheDecodedInstruction : Prop :=
  ∀ (s : State) (keys : KeySet) (draw : Byte) (rest : List HostEvent) (i : Instr),
    s.status = .running → s.pending = .cycle keys draw :: rest →
    decode [s.mem.read (s.pc.toNat % 4096), s.mem.read ((s.pc.toNat + 1) % 4096)] = .ok (i, []) →
    step s = exec i { s with pending := rest, keys := keys, draw := draw, pc := s.pc + 2 }

/-- With nothing pending a running machine executes the decoded instruction on free inputs, whatever they are, and a free
number of ticks follows (the model's choice, log 1 and 2; each tick as R110). -/
def Obligations.UnscriptedStepRunsTheDecodedInstruction : Prop :=
  ∀ (s : State) (i : Instr), s.status = .running → s.pending = [] →
    decode [s.mem.read (s.pc.toNat % 4096), s.mem.read ((s.pc.toNat + 1) % 4096)] = .ok (i, []) →
    step s = onNext (State.tick^[Config.freeTicks s.freeIdx])
      (exec i { s with keys := Config.freeKeys s.freeIdx, draw := Config.freeDraw s.freeIdx, pc := s.pc + 2,
                       freeIdx := s.freeIdx + 1 })

/-- An illegal word at `PC` stops a Cycle with DecodeError, carrying its address and the word, high byte first (R222,
R52). -/
def Obligations.IllegalWordRaisesDecodeError : Prop :=
  ∀ (s : State) (e : DecodeReject), s.status = .running →
    (s.pending = [] ∨ ∃ keys draw rest, s.pending = .cycle keys draw :: rest) →
    decode [s.mem.read (s.pc.toNat % 4096), s.mem.read ((s.pc.toNat + 1) % 4096)] = .error e →
    ∃ word : Word,
      word.toNat = (s.mem.read (s.pc.toNat % 4096)).toNat * 256 + (s.mem.read ((s.pc.toNat + 1) % 4096)).toNat ∧
      step s = .fault (.decodeError s.pc word)

/-- A faulted machine has no Cycle and no Tick: the model stops with the recorded fault (R113; that it answers the fault
again is the model's choice, log 11). Reset starts a new session (R227). -/
def Obligations.FaultedMachineOnlyResets : Prop :=
  ∀ (s : State) (f : Fault), s.status = .faulted f →
    (s.pending = [] ∨ (∃ keys draw rest, s.pending = .cycle keys draw :: rest) ∨ (∃ rest, s.pending = .tick :: rest) →
      step s = .fault f) ∧
    (∀ image rest, s.pending = .reset image :: rest → image.length ≤ 3584 → ∃ t, step s = .next t ∧ t.status = .running)

/-- Placing a word puts exactly it where the next Cycle fetches, moves `PC` nowhere and changes no other byte (the
model's choice, log 4; the byte order is R52). -/
def Obligations.PlacedWordIsFetched : Prop :=
  ∀ (s : State) (nbits w : Nat), Memory.wf s.mem →
    (s.withFetchWord nbits w).fetchWord = BitVec.ofNat 16 (w % 2 ^ nbits) ∧ (s.withFetchWord nbits w).pc = s.pc ∧
    (∀ a, ea a ≠ ea s.pc.toNat → ea a ≠ ea (s.pc.toNat + 1) → (s.withFetchWord nbits w).readByte a = s.readByte a)

/-- The word 0x0000 of an empty image stops the first cycle (R251): nothing runs by itself from reset. -/
def Obligations.EmptyImageStopsAtOnce : Prop := step State.reset = .fault (.decodeError 0x0200 0x0000)

/-! ### Invariants and whole-machine rules -/

/-- Every step keeps memory in canonical form (log 17). -/
def Obligations.StepKeepsMemoryCanonical : Prop := ∀ s t : State, s.Inv → step s = .next t → t.Inv

/-- The reset state, and the machine of any image that fits, have canonical memory. A longer image makes a Faulted
machine, whose memory no claim reads (R221, R251, D17; log 11). -/
def Obligations.ResetMemoryIsCanonical : Prop :=
  State.reset.Inv ∧ ∀ image : List Byte, image.length ≤ 3584 → (State.ofImage image).Inv

/-- After any event that answers a next state, STATUS is Running. It says nothing of an event that raises a fault: there
R28 sets STATUS to Faulted, and the model answers the fault with no state (the model's choice, log 11). A faulted machine
has no Cycle and no Tick, and the Reset that ends its session makes a Running one (R113, R227). -/
def Obligations.NextStatesAreRunning : Prop := ∀ s t : State, step s = .next t → t.status = .running

/-- No instruction is refused, and the only instructions that fault are CALL on a full stack and RET on an empty one,
which always do (R16, R220, R223, R226). -/
def Obligations.OnlyTheStackFaults : Prop :=
  ∀ (i : Instr) (s : State), (∀ r, exec i s ≠ .refused r) ∧ ∀ f, exec i s = .fault f ↔
    (∃ nnn, i = .call nnn) ∧ s.sp.val = 64 ∧ f = .stackOverflow s.pc ∨
    i = .ret ∧ s.sp.val = 0 ∧ f = .stackUnderflow s.pc

/-- Everything that can stop a step of a running machine: DecodeError on a word no row of R78 holds for, the two stack
faults with `PC` = a + 2 (D17, log 11), and LoadOverflow of a Reset (R220). -/
def Obligations.StepStopsOnlyByTheFourFaults : Prop :=
  ∀ s : State, s.status = .running → (∀ r, step s ≠ .refused r) ∧ ∀ f, step s = .fault f →
    (f = .decodeError s.pc s.fetchWord ∧ ∀ r ∈ opcodeTable, r.holds s.fetchWord = false) ∨
    (f = .stackOverflow (s.pc + 2) ∧ s.sp.val = 64 ∧ s.fetchWord &&& 0xF000 = 0x2000) ∨
    (f = .stackUnderflow (s.pc + 2) ∧ s.sp.val = 0 ∧ s.fetchWord &&& 0xF0FF = 0x00EE) ∨
    (∃ image rest, s.pending = .reset image :: rest ∧ 3584 < image.length ∧ f = .loadOverflow image.length)

/-- The frame of every instruction, from the table of R41: a register, `I`, the stack, a timer, the framebuffer or a byte
of memory that is not in an instruction's row is unchanged, and no instruction changes KEYS or STATUS (D8, D9, D10: log
9, 10). -/
def Obligations.InstructionsWriteOnlyTheirColumns : Prop :=
  ∀ (i : Instr) (s t : State), Memory.wf s.mem → exec i s = .next t →
    (∀ r, writesReg r i = false → t.reg r = s.reg r) ∧
    (writesIndex i = false → t.index = s.index) ∧
    (usesStack i = false → t.sp = s.sp ∧ t.stack = s.stack) ∧
    (i = .ret → t.stack = s.stack) ∧
    (∀ k (h : k < 64), k ≠ s.sp.val → t.stack[k] = s.stack[k]) ∧
    ((∀ x, i ≠ .ldDtVx x) → t.dt = s.dt) ∧
    ((∀ x, i ≠ .ldStVx x) → t.st = s.st) ∧
    (writesScreen i = false → t.fb = s.fb) ∧
    (∀ a, (∀ k < storedBytes i, ea a ≠ ea (s.index.toNat + k)) → t.readByte a = s.readByte a) ∧
    t.keys = s.keys ∧ t.status = s.status ∧ t.draw = s.draw ∧ t.pending = s.pending ∧ t.freeIdx = s.freeIdx

/-- What no instruction looks at: `draw` is read by RND only, KEYS by SKP, SKNP and LD Vx, K only, `DT` by LD Vx, DT only,
`ST` by none, the framebuffer by DRW only, and STATUS by none. Changing such a field before an instruction that neither
reads nor writes it changes that field after it and nothing else (R41). -/
def Obligations.InstructionsReadOnlyTheirColumns : Prop :=
  ∀ (i : Instr) (s : State),
    (∀ d, (∀ x kk, i ≠ .rnd x kk) → exec i { s with draw := d } = onNext (fun t => { t with draw := d }) (exec i s)) ∧
    (∀ k, (∀ x, i ≠ .skp x ∧ i ≠ .sknp x ∧ i ≠ .ldVxKey x) →
      exec i { s with keys := k } = onNext (fun t => { t with keys := k }) (exec i s)) ∧
    (∀ b, (∀ x, i ≠ .ldVxDt x ∧ i ≠ .ldDtVx x) →
      exec i { s with dt := b } = onNext (fun t => { t with dt := b }) (exec i s)) ∧
    (∀ b x, exec (.ldDtVx x) { s with dt := b } = exec (.ldDtVx x) s) ∧
    (∀ b, (∀ x, i ≠ .ldStVx x) → exec i { s with st := b } = onNext (fun t => { t with st := b }) (exec i s)) ∧
    (∀ b x, exec (.ldStVx x) { s with st := b } = exec (.ldStVx x) s) ∧
    (∀ g, writesScreen i = false → exec i { s with fb := g } = onNext (fun t => { t with fb := g }) (exec i s)) ∧
    (∀ g, exec .cls { s with fb := g } = exec .cls s) ∧
    (∀ u, exec i { s with status := u } = onNext (fun t => { t with status := u }) (exec i s))

/-- Where every instruction that completes leaves `PC`, the table of R24, with a = `s.pc - 2` its own address (sums modulo
65536: D7, log 8). -/
def Obligations.PcAfterEveryInstruction : Prop :=
  ∀ (i : Instr) (s t : State), exec i s = .next t → t.pc = pcAfter i s (s.pc - 2)

/-! ### Control flow -/

/-- JP goes to `nnn`, JP V0 to `nnn + V[0]`, and neither changes anything else (R121, R127). -/
def Obligations.JumpsGoToTheirTarget : Prop :=
  (∀ nnn s, exec (.jp nnn) s = .next { s with pc := BitVec.ofNat 16 nnn.toNat }) ∧
  (∀ nnn s, exec (.jpV0 nnn) s = .next { s with pc := BitVec.ofNat 16 (nnn.toNat + (s.reg 0).toNat) })

/-- CALL with a free entry pushes `PC`, the return address, and jumps; with none it stops and pushes nothing (R122). -/
def Obligations.CallPushesTheReturnAddress : Prop :=
  ∀ (nnn : BitVec 12) (s : State),
    (s.sp.val ≠ 64 → ∃ t, exec (.call nnn) s = .next t ∧ t.pc.toNat = nnn.toNat ∧ t.sp.val = s.sp.val + 1 ∧
      (∀ k (h : k < 64), t.stack[k] = if k = s.sp.val then s.pc else s.stack[k]) ∧
      t = { s with pc := t.pc, sp := t.sp, stack := t.stack }) ∧
    (s.sp.val = 64 → exec (.call nnn) s = .fault (.stackOverflow s.pc))

/-- RET with an entry goes to the last one pushed and leaves it in place; with none it stops (R120). -/
def Obligations.RetGoesToTheLastPushed : Prop :=
  ∀ s : State,
    (s.sp.val ≠ 0 → ∃ t, exec .ret s = .next t ∧ t.sp.val + 1 = s.sp.val ∧
      (∀ (k : Nat) (h : k < 64), k + 1 = s.sp.val → t.pc = s.stack[k]) ∧
      t = { s with pc := t.pc, sp := t.sp }) ∧
    (s.sp.val = 0 → exec .ret s = .fault (.stackUnderflow s.pc))

/-- Calls nested to any depth the stack has room for, then as many returns, come back to the first `PC` with the stack at
its first depth and the entries below it untouched (R122, and S5 of 95_test_vectors). -/
def Obligations.NestedCallsReturn : Prop :=
  ∀ (targets : List (BitVec 12)) (s : State), s.sp.val + targets.length ≤ 64 →
    ∃ t, execAll (targets.map .call ++ List.replicate targets.length .ret) s = .next t ∧
      t.pc = s.pc ∧ t.sp = s.sp ∧ (∀ k (h : k < 64), k < s.sp.val → t.stack[k] = s.stack[k]) ∧
      t = { s with stack := t.stack }

/-- The four register skips advance `PC` by 2 more exactly when their comparison holds (R123 to R126). -/
def Obligations.RegisterSkips : Prop :=
  ∀ (x y : RegNum) (kk : Byte) (s : State),
    exec (.seImm x kk) s = .next { s with pc := if (s.reg x).toNat = kk.toNat then s.pc + 2 else s.pc } ∧
    exec (.sneImm x kk) s = .next { s with pc := if (s.reg x).toNat = kk.toNat then s.pc else s.pc + 2 } ∧
    exec (.seReg x y) s = .next { s with pc := if (s.reg x).toNat = (s.reg y).toNat then s.pc + 2 else s.pc } ∧
    exec (.sneReg x y) s = .next { s with pc := if (s.reg x).toNat = (s.reg y).toNat then s.pc else s.pc + 2 }

/-! ### Registers and ALU -/

/-- LD Vx, kk, all of R140: its words, its effect on every register with VF like any other, no flag, no fault, and the
document's example. -/
def Obligations.LoadImmediate : Prop :=
  (∀ w : Word, w &&& 0xF000 = 0x6000 → decodeWord w = .ok (.ldImm (fieldX w) (fieldKk w))) ∧
  (∀ (x : RegNum) (kk : Byte) (s : State), ∃ t, exec (.ldImm x kk) s = .next t ∧
    t.reg x = kk ∧ (∀ r, r ≠ x → t.reg r = s.reg r) ∧ t = { s with v := t.v }) ∧
  (∀ s : State, decodeWord 0x6341 = .ok (.ldImm 3 0x41) ∧
    ∃ t, exec (.ldImm 3 0x41) s = .next t ∧ t.reg 3 = 0x41)

/-- ADD Vx, kk, all of R141: its words, the sum modulo 256, VF untouched unless it is the destination, no fault, and the
examples. -/
def Obligations.AddImmediate : Prop :=
  (∀ w : Word, w &&& 0xF000 = 0x7000 → decodeWord w = .ok (.addImm (fieldX w) (fieldKk w))) ∧
  (∀ (x : RegNum) (kk : Byte) (s : State), ∃ t, exec (.addImm x kk) s = .next t ∧
    (t.reg x).toNat = ((s.reg x).toNat + kk.toNat) % 256 ∧ (∀ r, r ≠ x → t.reg r = s.reg r) ∧ t = { s with v := t.v }) ∧
  (∀ s : State, s.reg 3 = 0x41 → decodeWord 0x7301 = .ok (.addImm 3 0x01) ∧
    ∃ t, exec (.addImm 3 0x01) s = .next t ∧ t.reg 3 = 0x42) ∧
  (∀ s : State, s.reg 0 = 0x05 → decodeWord 0x70FF = .ok (.addImm 0 0xFF) ∧
    ∃ t, exec (.addImm 0 0xFF) s = .next t ∧ t.reg 0 = 0x04 ∧ t.reg 15 = s.reg 15) ∧
  (∀ s : State, s.reg 0 = 0x00 → ∃ t, exec (.addImm 0 0xFF) s = .next t ∧ t.reg 0 = 0xFF)

/-- LD Vx, Vy, OR, AND and XOR write `V[x]` bit by bit and nothing else, VF included (R142 to R145; VF untouched: D9, log
9). -/
def Obligations.CopyAndBitwise : Prop :=
  ∀ (x y : RegNum) (s : State),
    (∃ t, exec (.ldReg x y) s = .next t ∧ t.reg x = s.reg y ∧ (∀ r, r ≠ x → t.reg r = s.reg r) ∧
      t = { s with v := t.v }) ∧
    (∃ t, exec (.orReg x y) s = .next t ∧
      (∀ k, (t.reg x).getLsbD k = ((s.reg x).getLsbD k || (s.reg y).getLsbD k)) ∧
      (∀ r, r ≠ x → t.reg r = s.reg r) ∧ t = { s with v := t.v }) ∧
    (∃ t, exec (.andReg x y) s = .next t ∧
      (∀ k, (t.reg x).getLsbD k = ((s.reg x).getLsbD k && (s.reg y).getLsbD k)) ∧
      (∀ r, r ≠ x → t.reg r = s.reg r) ∧ t = { s with v := t.v }) ∧
    (∃ t, exec (.xorReg x y) s = .next t ∧
      (∀ k, (t.reg x).getLsbD k = ((s.reg x).getLsbD k ^^ (s.reg y).getLsbD k)) ∧
      (∀ r, r ≠ x → t.reg r = s.reg r) ∧ t = { s with v := t.v })

/-- ADD Vx, Vy: VF is the carry, which stands even when `x` is 0xF; otherwise `V[x]` is the sum modulo 256 (R147; x = 0xF:
D8, log 10). -/
def Obligations.AddSetsTheCarry : Prop :=
  ∀ (x y : RegNum) (s : State), ∃ t, exec (.addReg x y) s = .next t ∧
    (t.reg 15).toNat = (if (s.reg x).toNat + (s.reg y).toNat > 255 then 1 else 0) ∧
    (x ≠ 15 → (t.reg x).toNat = ((s.reg x).toNat + (s.reg y).toNat) % 256) ∧
    (∀ r, r ≠ x → r ≠ 15 → t.reg r = s.reg r) ∧ t = { s with v := t.v }

/-- SUB and SUBN: `V[x]` is the difference modulo 256, which stands even when `x` is 0xF; otherwise VF is 1 exactly when
the minuend is strictly greater (R146, R148, R150; x = 0xF: D8, log 10). -/
def Obligations.SubtractsSetTheFlag : Prop :=
  ∀ (x y : RegNum) (s : State),
    (∃ t, exec (.subReg x y) s = .next t ∧
      ((t.reg x).toNat : Int) = ((s.reg x).toNat - (s.reg y).toNat : Int) % 256 ∧
      (x ≠ 15 → (t.reg 15).toNat = if (s.reg x).toNat > (s.reg y).toNat then 1 else 0) ∧
      (∀ r, r ≠ x → r ≠ 15 → t.reg r = s.reg r) ∧ t = { s with v := t.v }) ∧
    (∃ t, exec (.subnReg x y) s = .next t ∧
      ((t.reg x).toNat : Int) = ((s.reg y).toNat - (s.reg x).toNat : Int) % 256 ∧
      (x ≠ 15 → (t.reg 15).toNat = if (s.reg y).toNat > (s.reg x).toNat then 1 else 0) ∧
      (∀ r, r ≠ x → r ≠ 15 → t.reg r = s.reg r) ∧ t = { s with v := t.v })

/-- SHR and SHL of `V[x]` itself: the result stands even when `x` is 0xF; otherwise VF is the bit shifted out (R149, R151;
x = 0xF: D8, log 10). -/
def Obligations.ShiftsSetTheFlag : Prop :=
  ∀ (x : RegNum) (s : State),
    (∃ t, exec (.shr x) s = .next t ∧ (t.reg x).toNat = (s.reg x).toNat / 2 ∧
      (x ≠ 15 → (t.reg 15).toNat = (s.reg x).toNat % 2) ∧
      (∀ r, r ≠ x → r ≠ 15 → t.reg r = s.reg r) ∧ t = { s with v := t.v }) ∧
    (∃ t, exec (.shl x) s = .next t ∧ (t.reg x).toNat = (s.reg x).toNat * 2 % 256 ∧
      (x ≠ 15 → (t.reg 15).toNat = (s.reg x).toNat / 128) ∧
      (∀ r, r ≠ x → r ≠ 15 → t.reg r = s.reg r) ∧ t = { s with v := t.v })

/-- RND masks the byte supplied for the cycle, whatever it is (R152; D21, log 1). -/
def Obligations.RandomMasksTheDraw : Prop :=
  ∀ (x : RegNum) (kk : Byte) (s : State), ∃ t, exec (.rnd x kk) s = .next t ∧
    (∀ k, (t.reg x).getLsbD k = (s.draw.getLsbD k && kk.getLsbD k)) ∧
    (∀ r, r ≠ x → t.reg r = s.reg r) ∧ t = { s with v := t.v }

/-! ### Index register and memory -/

/-- LD I, ADD I and LD F: the address, the sum modulo 65536, the font address of the whole register value; nothing else
changes, VF included (R170 to R172). -/
def Obligations.IndexLoads : Prop :=
  ∀ (nnn : BitVec 12) (x : RegNum) (s : State),
    exec (.ldI nnn) s = .next { s with index := BitVec.ofNat 16 nnn.toNat } ∧
    (∃ t, exec (.addI x) s = .next t ∧ t.index.toNat = (s.index.toNat + (s.reg x).toNat) % 65536 ∧
      t = { s with index := t.index }) ∧
    (∃ t, exec (.ldFont x) s = .next t ∧ t.index.toNat = 0x050 + 5 * (s.reg x).toNat ∧ t = { s with index := t.index })

/-- LD B stores the three decimal digits from `I` up, modulo 4096, and changes no other byte and nothing else (R173, R55;
`I` kept: D10, log 9). -/
def Obligations.BcdStoresTheDigits : Prop :=
  ∀ (x : RegNum) (s : State), Memory.wf s.mem → ∃ t, exec (.ldBcd x) s = .next t ∧
    (t.readByte s.index.toNat).toNat = (s.reg x).toNat / 100 ∧
    (t.readByte (s.index.toNat + 1)).toNat = (s.reg x).toNat / 10 % 10 ∧
    (t.readByte (s.index.toNat + 2)).toNat = (s.reg x).toNat % 10 ∧
    (∀ a, (∀ k < 3, ea a ≠ ea (s.index.toNat + k)) → t.readByte a = s.readByte a) ∧
    t = { s with mem := t.mem }

/-- LD [I], Vx stores `V[0]` to `V[x]` from `I` up, modulo 4096, and changes no other byte and nothing else (R174; D10,
D11, log 9, 12). -/
def Obligations.DumpStoresTheRegisters : Prop :=
  ∀ (x : RegNum) (s : State), Memory.wf s.mem → ∃ t, exec (.dump x) s = .next t ∧
    (∀ k : RegNum, k ≤ x → t.readByte (s.index.toNat + k.val) = s.reg k) ∧
    (∀ a, (∀ k : RegNum, k ≤ x → ea a ≠ ea (s.index.toNat + k.val)) → t.readByte a = s.readByte a) ∧
    t = { s with mem := t.mem }

/-- LD Vx, [I] loads `V[0]` to `V[x]` from `I` up, modulo 4096, and changes nothing else (R175; D10, D11, log 9, 12). -/
def Obligations.LoadFillsTheRegisters : Prop :=
  ∀ (x : RegNum) (s : State), ∃ t, exec (.load x) s = .next t ∧
    (∀ k : RegNum, t.reg k = if k ≤ x then s.readByte (s.index.toNat + k.val) else s.reg k) ∧ t = { s with v := t.v }

/-- A dump then a load at the same `I` gives the registers back, whatever they held in between (R176). -/
def Obligations.DumpThenLoadRoundTrip : Prop :=
  ∀ (x : RegNum) (s t : State) (between : Vector Byte 16), Memory.wf s.mem → exec (.dump x) s = .next t →
    ∃ u, exec (.load x) { t with v := between } = .next u ∧ ∀ k : RegNum, k ≤ x → u.reg k = s.reg k

/-- A byte reads as the last write to its effective address, or as before when there was none (R60, R58, R55). -/
def Obligations.MemoryReadsTheLastWrite : Prop :=
  ∀ (writes : List (Nat × Byte)) (s : State) (a : Nat), Memory.wf s.mem →
    (writes.foldl (fun t w => t.writeByte w.1 w.2) s).readByte a =
      match writes.reverse.find? (fun w => w.1 % 4096 == a % 4096) with
      | some w => w.2
      | none => s.readByte a

/-- Addresses wrap at 4096 for reads and writes alike (R55, D6, log 8). -/
def Obligations.AddressesWrap : Prop :=
  ∀ (s : State) (a : Nat) (b : Byte),
    s.readByte (a + 4096) = s.readByte a ∧ s.writeByte (a + 4096) b = s.writeByte a b

/-- The bytes a dump stores are what a fetch from there sees, the lower address high (R62, R52). -/
def Obligations.FetchSeesTheStore : Prop :=
  ∀ (x j k : RegNum) (s t : State) (p : Word), Memory.wf s.mem → exec (.dump x) s = .next t → k ≤ x → k.val = j.val + 1 →
    p.toNat % 4096 = (s.index.toNat + j.val) % 4096 →
    ({ t with pc := p } : State).fetchWord.toNat = (s.reg j).toNat * 256 + (s.reg k).toNat

/-! ### Display -/

/-- CLS unsets every cell and changes nothing else, VF included (R190). -/
def Obligations.ClearScreenUnsetsEveryCell : Prop :=
  ∀ s : State, ∃ t, exec .cls s = .next t ∧ (∀ px py, pixel t.fb px py = false) ∧ t = { s with fb := t.fb }

/-- DRW: every cell becomes itself XOR the sprite's bit for it, each pixel wrapping by itself; VF is 1 exactly when some
cell went from set to unset; nothing else changes (R191, R192; bit order D14, log 15; origin from the old registers D8,
log 10). -/
def Obligations.DrawXorsTheSprite : Prop :=
  ∀ (x y : RegNum) (n : Nat) (s : State), n < 16 → ∃ t, exec (.drw x y n) s = .next t ∧
    (∀ px < 64, ∀ py < 32, pixel t.fb px py =
      (pixel s.fb px py ^^ spriteBit s s.index.toNat n (s.reg x).toNat (s.reg y).toNat px py)) ∧
    (t.reg 15 = 1 ∧ (∃ px < 64, ∃ py < 32, pixel s.fb px py = true ∧ pixel t.fb px py = false) ∨
      t.reg 15 = 0 ∧ ∀ px < 64, ∀ py < 32, pixel s.fb px py = true → pixel t.fb px py = true) ∧
    (∀ r, r ≠ 15 → t.reg r = s.reg r) ∧ t = { s with v := t.v, fb := t.fb }

/-- Drawing the same sprite twice at the same place restores the framebuffer, and the second draw reports a collision
exactly when a cell under a set bit of the sprite was unset at first (R191, and R192, whose last item holds of a
clear framebuffer). -/
def Obligations.DrawTwiceRestores : Prop :=
  ∀ (x y : RegNum) (n : Nat) (s t : State), n < 16 → exec (.drw x y n) s = .next t →
    ∃ u, exec (.drw x y n) { t with v := s.v } = .next u ∧ u.fb = s.fb ∧
      (u.reg 15 = 1 ↔ ∃ px < 64, ∃ py < 32, pixel s.fb px py = false ∧
        spriteBit s s.index.toNat n (s.reg x).toNat (s.reg y).toNat px py = true)

/-! ### Keys and timers -/

/-- SKP and SKNP: a register value above 15 counts as not pressed (R200, R201; D12, log 14). -/
def Obligations.KeySkips : Prop :=
  ∀ (x : RegNum) (s : State),
    exec (.skp x) s = .next { s with pc :=
      if (s.reg x).toNat ≤ 15 ∧ s.keys.getLsbD (s.reg x).toNat = true then s.pc + 2 else s.pc } ∧
    exec (.sknp x) s = .next { s with pc :=
      if (s.reg x).toNat ≤ 15 ∧ s.keys.getLsbD (s.reg x).toNat = true then s.pc else s.pc + 2 }

/-- LD Vx, K: with no key pressed `PC` goes back to the instruction and nothing else changes; with some, the lowest
pressed key's number goes to `V[x]` (R203). One of the two cases always holds. -/
def Obligations.WaitForKey : Prop :=
  ∀ (x : RegNum) (s : State),
    (s.keys = 0 → exec (.ldVxKey x) s = .next { s with pc := s.pc - 2 }) ∧
    (s.keys ≠ 0 → ∃ (k : Fin 16) (t : State), exec (.ldVxKey x) s = .next t ∧
      s.keys.getLsbD k = true ∧ (∀ j : Fin 16, j < k → s.keys.getLsbD j = false) ∧
      (t.reg x).toNat = k.val ∧ (∀ r, r ≠ x → t.reg r = s.reg r) ∧ t = { s with v := t.v })

/-- The three timer transfers are direct copies (R202, R204, R205). -/
def Obligations.TimerTransfers : Prop :=
  ∀ (x : RegNum) (s : State),
    (∃ t, exec (.ldVxDt x) s = .next t ∧ t.reg x = s.dt ∧ (∀ r, r ≠ x → t.reg r = s.reg r) ∧ t = { s with v := t.v }) ∧
    exec (.ldDtVx x) s = .next { s with dt := s.reg x } ∧
    exec (.ldStVx x) s = .next { s with st := s.reg x }

/-- Tick, all of R110: both timers go down by one, never below zero, nothing else changes and nothing is raised; a timer
loaded with v is zero after exactly v ticks and stays there; a machine that is not Running has no Tick. -/
def Obligations.TicksCountDownBothTimers : Prop :=
  (∀ (k : Nat) (rest : List HostEvent) (s : State), s.status = .running → s.pending = List.replicate k .tick ++ rest →
    ∃ t, Host.Core.run core k s = .next t ∧ t.dt.toNat = s.dt.toNat - k ∧ t.st.toNat = s.st.toNat - k ∧
      t = { s with pending := rest, dt := t.dt, st := t.st }) ∧
  (∀ (rest : List HostEvent) (s t : State), s.status ≠ .running → s.pending = .tick :: rest → step s ≠ .next t)

/-! ### Reset -/

/-- Reset(image), all of R250: on a running or a faulted machine alike, an image that fits gives every field its value,
the font and the image in memory and zeros elsewhere, and a fetch from 0x200; a longer one gives a machine Faulted with
its length, and the event stops with that fault. -/
def Obligations.ResetStartsASession : Prop :=
  ∀ (s : State) (image : List Byte) (rest : List HostEvent), s.pending = .reset image :: rest →
    (image.length ≤ 3584 → ∃ t, step s = .next t ∧
      (∀ r, t.reg r = 0) ∧ t.index = 0 ∧ t.sp = 0 ∧ (∀ k (h : k < 64), t.stack[k] = 0) ∧ t.dt = 0 ∧ t.st = 0 ∧
      (∀ px py, pixel t.fb px py = false) ∧ t.keys = 0 ∧ t.pc = 0x0200 ∧ t.status = .running ∧
      (∀ k < 0x050, t.readByte k = 0) ∧
      (∀ k < 80, t.readByte (0x050 + k) = font.getD k 0) ∧
      (∀ k, 0x0A0 ≤ k → k < 0x200 → t.readByte k = 0) ∧
      (∀ k (h : k < image.length), t.readByte (0x200 + k) = image[k]) ∧
      (∀ k, 0x200 + image.length ≤ k → k < 4096 → t.readByte k = 0) ∧
      t.fetchWord = wordOfBytes (image.getD 0 0) (image.getD 1 0)) ∧
    (3584 < image.length →
      (State.ofImage image).status = .faulted (.loadOverflow image.length) ∧
      step s = .fault (.loadOverflow image.length))

/-- The reset state is Reset of the empty image, and every row of R40 has its value in it: each register, `I`, `PC`, `SP`,
each stack entry, the timers, each framebuffer cell, KEYS, each region of memory, STATUS (zeros: D19; the font bytes: D15,
log 16). -/
def Obligations.ResetStateValues : Prop :=
  State.ofImage [] = State.reset ∧ State.reset.pc = 0x0200 ∧ State.reset.index = 0 ∧ State.reset.sp = 0 ∧
  (∀ r, State.reset.reg r = 0) ∧ (∀ k (h : k < 64), State.reset.stack[k] = 0) ∧ State.reset.dt = 0 ∧
  State.reset.st = 0 ∧ (∀ px < 64, ∀ py < 32, pixel State.reset.fb px py = false) ∧ State.reset.keys = 0 ∧
  State.reset.status = .running ∧ (∀ a < 0x050, State.reset.readByte a = 0x00) ∧
  (∀ k < 80, State.reset.readByte (0x050 + k) = font.getD k 0) ∧ State.reset.readByte 0x050 = 0xF0 ∧
  State.reset.readByte 0x09F = 0x80 ∧ (∀ a, 0x0A0 ≤ a → a < 4096 → State.reset.readByte a = 0x00)

/-- While the font reads as at reset, whatever the rest of memory holds, LD F of a digit completes with `I` at the five
bytes of that digit's glyph: glyph d at 0x050 + 5 * d (R172, R252; the bytes are D15, log 16). -/
def Obligations.FontAddressesHoldTheGlyphs : Prop :=
  ∀ (x : RegNum) (s : State), (∀ k < 80, s.readByte (0x050 + k) = font.getD k 0) → (s.reg x).toNat < 16 →
    ∃ t, exec (.ldFont x) s = .next t ∧ t = { s with index := t.index } ∧ font.length = 80 ∧
      ∀ row < 5, t.readByte (t.index.toNat + row) = font.getD (5 * (s.reg x).toNat + row) 0

/-- A jump to itself is the terminal state of R262: a Cycle leaves everything but the host's own inputs as it is (D22, log
18). -/
def Obligations.SelfJumpStaysPut : Prop :=
  ∀ (s : State) (keys : KeySet) (draw : Byte) (rest : List HostEvent), s.selfJump → s.status = .running →
    s.pending = .cycle keys draw :: rest → step s = .next { s with pending := rest, keys := keys, draw := draw }
end

