-- ==== Sys2Proof/Laws/State.lean ====
section
/-! SUPPORT. What each named update of the state leaves in each field, and in the accessors `reg` and `readByte`. -/

namespace Sys2Proof.Machine

set_option Elab.async false

/-! ### `setReg` -/

@[simp] theorem State.setReg_v (s : State) (r : RegNum) (b : Byte) :
    (s.setReg r b).v = s.v.set r b := rfl

@[simp] theorem State.setReg_index (s : State) (r : RegNum) (b : Byte) :
    (s.setReg r b).index = s.index := rfl

@[simp] theorem State.setReg_pc (s : State) (r : RegNum) (b : Byte) :
    (s.setReg r b).pc = s.pc := rfl

@[simp] theorem State.setReg_sp (s : State) (r : RegNum) (b : Byte) :
    (s.setReg r b).sp = s.sp := rfl

@[simp] theorem State.setReg_stack (s : State) (r : RegNum) (b : Byte) :
    (s.setReg r b).stack = s.stack := rfl

@[simp] theorem State.setReg_dt (s : State) (r : RegNum) (b : Byte) :
    (s.setReg r b).dt = s.dt := rfl

@[simp] theorem State.setReg_st (s : State) (r : RegNum) (b : Byte) :
    (s.setReg r b).st = s.st := rfl

@[simp] theorem State.setReg_fb (s : State) (r : RegNum) (b : Byte) :
    (s.setReg r b).fb = s.fb := rfl

@[simp] theorem State.setReg_keys (s : State) (r : RegNum) (b : Byte) :
    (s.setReg r b).keys = s.keys := rfl

@[simp] theorem State.setReg_mem (s : State) (r : RegNum) (b : Byte) :
    (s.setReg r b).mem = s.mem := rfl

@[simp] theorem State.setReg_status (s : State) (r : RegNum) (b : Byte) :
    (s.setReg r b).status = s.status := rfl

@[simp] theorem State.setReg_draw (s : State) (r : RegNum) (b : Byte) :
    (s.setReg r b).draw = s.draw := rfl

@[simp] theorem State.setReg_pending (s : State) (r : RegNum) (b : Byte) :
    (s.setReg r b).pending = s.pending := rfl

@[simp] theorem State.setReg_freeIdx (s : State) (r : RegNum) (b : Byte) :
    (s.setReg r b).freeIdx = s.freeIdx := rfl

@[simp] theorem State.setReg_readByte (s : State) (r : RegNum) (b : Byte) (c : Nat) :
    (s.setReg r b).readByte c = s.readByte c := rfl

/-! ### `setIndex` -/

@[simp] theorem State.setIndex_v (s : State) (w : Word) :
    (s.setIndex w).v = s.v := rfl

@[simp] theorem State.setIndex_index (s : State) (w : Word) :
    (s.setIndex w).index = w := rfl

@[simp] theorem State.setIndex_pc (s : State) (w : Word) :
    (s.setIndex w).pc = s.pc := rfl

@[simp] theorem State.setIndex_sp (s : State) (w : Word) :
    (s.setIndex w).sp = s.sp := rfl

@[simp] theorem State.setIndex_stack (s : State) (w : Word) :
    (s.setIndex w).stack = s.stack := rfl

@[simp] theorem State.setIndex_dt (s : State) (w : Word) :
    (s.setIndex w).dt = s.dt := rfl

@[simp] theorem State.setIndex_st (s : State) (w : Word) :
    (s.setIndex w).st = s.st := rfl

@[simp] theorem State.setIndex_fb (s : State) (w : Word) :
    (s.setIndex w).fb = s.fb := rfl

@[simp] theorem State.setIndex_keys (s : State) (w : Word) :
    (s.setIndex w).keys = s.keys := rfl

@[simp] theorem State.setIndex_mem (s : State) (w : Word) :
    (s.setIndex w).mem = s.mem := rfl

@[simp] theorem State.setIndex_status (s : State) (w : Word) :
    (s.setIndex w).status = s.status := rfl

@[simp] theorem State.setIndex_draw (s : State) (w : Word) :
    (s.setIndex w).draw = s.draw := rfl

@[simp] theorem State.setIndex_pending (s : State) (w : Word) :
    (s.setIndex w).pending = s.pending := rfl

@[simp] theorem State.setIndex_freeIdx (s : State) (w : Word) :
    (s.setIndex w).freeIdx = s.freeIdx := rfl

@[simp] theorem State.setIndex_reg (s : State) (w : Word) (q : RegNum) :
    (s.setIndex w).reg q = s.reg q := rfl

@[simp] theorem State.setIndex_readByte (s : State) (w : Word) (c : Nat) :
    (s.setIndex w).readByte c = s.readByte c := rfl

/-! ### `setPc` -/

@[simp] theorem State.setPc_v (s : State) (w : Word) :
    (s.setPc w).v = s.v := rfl

@[simp] theorem State.setPc_index (s : State) (w : Word) :
    (s.setPc w).index = s.index := rfl

@[simp] theorem State.setPc_pc (s : State) (w : Word) :
    (s.setPc w).pc = w := rfl

@[simp] theorem State.setPc_sp (s : State) (w : Word) :
    (s.setPc w).sp = s.sp := rfl

@[simp] theorem State.setPc_stack (s : State) (w : Word) :
    (s.setPc w).stack = s.stack := rfl

@[simp] theorem State.setPc_dt (s : State) (w : Word) :
    (s.setPc w).dt = s.dt := rfl

@[simp] theorem State.setPc_st (s : State) (w : Word) :
    (s.setPc w).st = s.st := rfl

@[simp] theorem State.setPc_fb (s : State) (w : Word) :
    (s.setPc w).fb = s.fb := rfl

@[simp] theorem State.setPc_keys (s : State) (w : Word) :
    (s.setPc w).keys = s.keys := rfl

@[simp] theorem State.setPc_mem (s : State) (w : Word) :
    (s.setPc w).mem = s.mem := rfl

@[simp] theorem State.setPc_status (s : State) (w : Word) :
    (s.setPc w).status = s.status := rfl

@[simp] theorem State.setPc_draw (s : State) (w : Word) :
    (s.setPc w).draw = s.draw := rfl

@[simp] theorem State.setPc_pending (s : State) (w : Word) :
    (s.setPc w).pending = s.pending := rfl

@[simp] theorem State.setPc_freeIdx (s : State) (w : Word) :
    (s.setPc w).freeIdx = s.freeIdx := rfl

@[simp] theorem State.setPc_reg (s : State) (w : Word) (q : RegNum) :
    (s.setPc w).reg q = s.reg q := rfl

@[simp] theorem State.setPc_readByte (s : State) (w : Word) (c : Nat) :
    (s.setPc w).readByte c = s.readByte c := rfl

/-! ### `setDt` -/

@[simp] theorem State.setDt_v (s : State) (b : Byte) :
    (s.setDt b).v = s.v := rfl

@[simp] theorem State.setDt_index (s : State) (b : Byte) :
    (s.setDt b).index = s.index := rfl

@[simp] theorem State.setDt_pc (s : State) (b : Byte) :
    (s.setDt b).pc = s.pc := rfl

@[simp] theorem State.setDt_sp (s : State) (b : Byte) :
    (s.setDt b).sp = s.sp := rfl

@[simp] theorem State.setDt_stack (s : State) (b : Byte) :
    (s.setDt b).stack = s.stack := rfl

@[simp] theorem State.setDt_dt (s : State) (b : Byte) :
    (s.setDt b).dt = b := rfl

@[simp] theorem State.setDt_st (s : State) (b : Byte) :
    (s.setDt b).st = s.st := rfl

@[simp] theorem State.setDt_fb (s : State) (b : Byte) :
    (s.setDt b).fb = s.fb := rfl

@[simp] theorem State.setDt_keys (s : State) (b : Byte) :
    (s.setDt b).keys = s.keys := rfl

@[simp] theorem State.setDt_mem (s : State) (b : Byte) :
    (s.setDt b).mem = s.mem := rfl

@[simp] theorem State.setDt_status (s : State) (b : Byte) :
    (s.setDt b).status = s.status := rfl

@[simp] theorem State.setDt_draw (s : State) (b : Byte) :
    (s.setDt b).draw = s.draw := rfl

@[simp] theorem State.setDt_pending (s : State) (b : Byte) :
    (s.setDt b).pending = s.pending := rfl

@[simp] theorem State.setDt_freeIdx (s : State) (b : Byte) :
    (s.setDt b).freeIdx = s.freeIdx := rfl

@[simp] theorem State.setDt_reg (s : State) (b : Byte) (q : RegNum) :
    (s.setDt b).reg q = s.reg q := rfl

@[simp] theorem State.setDt_readByte (s : State) (b : Byte) (c : Nat) :
    (s.setDt b).readByte c = s.readByte c := rfl

/-! ### `setSt` -/

@[simp] theorem State.setSt_v (s : State) (b : Byte) :
    (s.setSt b).v = s.v := rfl

@[simp] theorem State.setSt_index (s : State) (b : Byte) :
    (s.setSt b).index = s.index := rfl

@[simp] theorem State.setSt_pc (s : State) (b : Byte) :
    (s.setSt b).pc = s.pc := rfl

@[simp] theorem State.setSt_sp (s : State) (b : Byte) :
    (s.setSt b).sp = s.sp := rfl

@[simp] theorem State.setSt_stack (s : State) (b : Byte) :
    (s.setSt b).stack = s.stack := rfl

@[simp] theorem State.setSt_dt (s : State) (b : Byte) :
    (s.setSt b).dt = s.dt := rfl

@[simp] theorem State.setSt_st (s : State) (b : Byte) :
    (s.setSt b).st = b := rfl

@[simp] theorem State.setSt_fb (s : State) (b : Byte) :
    (s.setSt b).fb = s.fb := rfl

@[simp] theorem State.setSt_keys (s : State) (b : Byte) :
    (s.setSt b).keys = s.keys := rfl

@[simp] theorem State.setSt_mem (s : State) (b : Byte) :
    (s.setSt b).mem = s.mem := rfl

@[simp] theorem State.setSt_status (s : State) (b : Byte) :
    (s.setSt b).status = s.status := rfl

@[simp] theorem State.setSt_draw (s : State) (b : Byte) :
    (s.setSt b).draw = s.draw := rfl

@[simp] theorem State.setSt_pending (s : State) (b : Byte) :
    (s.setSt b).pending = s.pending := rfl

@[simp] theorem State.setSt_freeIdx (s : State) (b : Byte) :
    (s.setSt b).freeIdx = s.freeIdx := rfl

@[simp] theorem State.setSt_reg (s : State) (b : Byte) (q : RegNum) :
    (s.setSt b).reg q = s.reg q := rfl

@[simp] theorem State.setSt_readByte (s : State) (b : Byte) (c : Nat) :
    (s.setSt b).readByte c = s.readByte c := rfl

/-! ### `setFb` -/

@[simp] theorem State.setFb_v (s : State) (f : Framebuffer) :
    (s.setFb f).v = s.v := rfl

@[simp] theorem State.setFb_index (s : State) (f : Framebuffer) :
    (s.setFb f).index = s.index := rfl

@[simp] theorem State.setFb_pc (s : State) (f : Framebuffer) :
    (s.setFb f).pc = s.pc := rfl

@[simp] theorem State.setFb_sp (s : State) (f : Framebuffer) :
    (s.setFb f).sp = s.sp := rfl

@[simp] theorem State.setFb_stack (s : State) (f : Framebuffer) :
    (s.setFb f).stack = s.stack := rfl

@[simp] theorem State.setFb_dt (s : State) (f : Framebuffer) :
    (s.setFb f).dt = s.dt := rfl

@[simp] theorem State.setFb_st (s : State) (f : Framebuffer) :
    (s.setFb f).st = s.st := rfl

@[simp] theorem State.setFb_fb (s : State) (f : Framebuffer) :
    (s.setFb f).fb = f := rfl

@[simp] theorem State.setFb_keys (s : State) (f : Framebuffer) :
    (s.setFb f).keys = s.keys := rfl

@[simp] theorem State.setFb_mem (s : State) (f : Framebuffer) :
    (s.setFb f).mem = s.mem := rfl

@[simp] theorem State.setFb_status (s : State) (f : Framebuffer) :
    (s.setFb f).status = s.status := rfl

@[simp] theorem State.setFb_draw (s : State) (f : Framebuffer) :
    (s.setFb f).draw = s.draw := rfl

@[simp] theorem State.setFb_pending (s : State) (f : Framebuffer) :
    (s.setFb f).pending = s.pending := rfl

@[simp] theorem State.setFb_freeIdx (s : State) (f : Framebuffer) :
    (s.setFb f).freeIdx = s.freeIdx := rfl

@[simp] theorem State.setFb_reg (s : State) (f : Framebuffer) (q : RegNum) :
    (s.setFb f).reg q = s.reg q := rfl

@[simp] theorem State.setFb_readByte (s : State) (f : Framebuffer) (c : Nat) :
    (s.setFb f).readByte c = s.readByte c := rfl

/-! ### `writeByte` -/

@[simp] theorem State.writeByte_v (s : State) (a : Nat) (b : Byte) :
    (s.writeByte a b).v = s.v := rfl

@[simp] theorem State.writeByte_index (s : State) (a : Nat) (b : Byte) :
    (s.writeByte a b).index = s.index := rfl

@[simp] theorem State.writeByte_pc (s : State) (a : Nat) (b : Byte) :
    (s.writeByte a b).pc = s.pc := rfl

@[simp] theorem State.writeByte_sp (s : State) (a : Nat) (b : Byte) :
    (s.writeByte a b).sp = s.sp := rfl

@[simp] theorem State.writeByte_stack (s : State) (a : Nat) (b : Byte) :
    (s.writeByte a b).stack = s.stack := rfl

@[simp] theorem State.writeByte_dt (s : State) (a : Nat) (b : Byte) :
    (s.writeByte a b).dt = s.dt := rfl

@[simp] theorem State.writeByte_st (s : State) (a : Nat) (b : Byte) :
    (s.writeByte a b).st = s.st := rfl

@[simp] theorem State.writeByte_fb (s : State) (a : Nat) (b : Byte) :
    (s.writeByte a b).fb = s.fb := rfl

@[simp] theorem State.writeByte_keys (s : State) (a : Nat) (b : Byte) :
    (s.writeByte a b).keys = s.keys := rfl

@[simp] theorem State.writeByte_mem (s : State) (a : Nat) (b : Byte) :
    (s.writeByte a b).mem = s.mem.write (ea a) b := rfl

@[simp] theorem State.writeByte_status (s : State) (a : Nat) (b : Byte) :
    (s.writeByte a b).status = s.status := rfl

@[simp] theorem State.writeByte_draw (s : State) (a : Nat) (b : Byte) :
    (s.writeByte a b).draw = s.draw := rfl

@[simp] theorem State.writeByte_pending (s : State) (a : Nat) (b : Byte) :
    (s.writeByte a b).pending = s.pending := rfl

@[simp] theorem State.writeByte_freeIdx (s : State) (a : Nat) (b : Byte) :
    (s.writeByte a b).freeIdx = s.freeIdx := rfl

@[simp] theorem State.writeByte_reg (s : State) (a : Nat) (b : Byte) (q : RegNum) :
    (s.writeByte a b).reg q = s.reg q := rfl

/-! ### `setFlag` -/

@[simp] theorem State.setFlag_v (s : State) (b : Bool) :
    (s.setFlag b).v = s.v.set Config.flagReg (flagByte b) := rfl

@[simp] theorem State.setFlag_index (s : State) (b : Bool) :
    (s.setFlag b).index = s.index := rfl

@[simp] theorem State.setFlag_pc (s : State) (b : Bool) :
    (s.setFlag b).pc = s.pc := rfl

@[simp] theorem State.setFlag_sp (s : State) (b : Bool) :
    (s.setFlag b).sp = s.sp := rfl

@[simp] theorem State.setFlag_stack (s : State) (b : Bool) :
    (s.setFlag b).stack = s.stack := rfl

@[simp] theorem State.setFlag_dt (s : State) (b : Bool) :
    (s.setFlag b).dt = s.dt := rfl

@[simp] theorem State.setFlag_st (s : State) (b : Bool) :
    (s.setFlag b).st = s.st := rfl

@[simp] theorem State.setFlag_fb (s : State) (b : Bool) :
    (s.setFlag b).fb = s.fb := rfl

@[simp] theorem State.setFlag_keys (s : State) (b : Bool) :
    (s.setFlag b).keys = s.keys := rfl

@[simp] theorem State.setFlag_mem (s : State) (b : Bool) :
    (s.setFlag b).mem = s.mem := rfl

@[simp] theorem State.setFlag_status (s : State) (b : Bool) :
    (s.setFlag b).status = s.status := rfl

@[simp] theorem State.setFlag_draw (s : State) (b : Bool) :
    (s.setFlag b).draw = s.draw := rfl

@[simp] theorem State.setFlag_pending (s : State) (b : Bool) :
    (s.setFlag b).pending = s.pending := rfl

@[simp] theorem State.setFlag_freeIdx (s : State) (b : Bool) :
    (s.setFlag b).freeIdx = s.freeIdx := rfl

@[simp] theorem State.setFlag_readByte (s : State) (b : Bool) (c : Nat) :
    (s.setFlag b).readByte c = s.readByte c := rfl

/-! ### `skipIf` -/

@[simp] theorem State.skipIf_v (s : State) (b : Bool) :
    (s.skipIf b).v = s.v := rfl

@[simp] theorem State.skipIf_index (s : State) (b : Bool) :
    (s.skipIf b).index = s.index := rfl

@[simp] theorem State.skipIf_pc (s : State) (b : Bool) :
    (s.skipIf b).pc = if b then s.pc + 2 else s.pc := rfl

@[simp] theorem State.skipIf_sp (s : State) (b : Bool) :
    (s.skipIf b).sp = s.sp := rfl

@[simp] theorem State.skipIf_stack (s : State) (b : Bool) :
    (s.skipIf b).stack = s.stack := rfl

@[simp] theorem State.skipIf_dt (s : State) (b : Bool) :
    (s.skipIf b).dt = s.dt := rfl

@[simp] theorem State.skipIf_st (s : State) (b : Bool) :
    (s.skipIf b).st = s.st := rfl

@[simp] theorem State.skipIf_fb (s : State) (b : Bool) :
    (s.skipIf b).fb = s.fb := rfl

@[simp] theorem State.skipIf_keys (s : State) (b : Bool) :
    (s.skipIf b).keys = s.keys := rfl

@[simp] theorem State.skipIf_mem (s : State) (b : Bool) :
    (s.skipIf b).mem = s.mem := rfl

@[simp] theorem State.skipIf_status (s : State) (b : Bool) :
    (s.skipIf b).status = s.status := rfl

@[simp] theorem State.skipIf_draw (s : State) (b : Bool) :
    (s.skipIf b).draw = s.draw := rfl

@[simp] theorem State.skipIf_pending (s : State) (b : Bool) :
    (s.skipIf b).pending = s.pending := rfl

@[simp] theorem State.skipIf_freeIdx (s : State) (b : Bool) :
    (s.skipIf b).freeIdx = s.freeIdx := rfl

@[simp] theorem State.skipIf_reg (s : State) (b : Bool) (q : RegNum) :
    (s.skipIf b).reg q = s.reg q := rfl

@[simp] theorem State.skipIf_readByte (s : State) (b : Bool) (c : Nat) :
    (s.skipIf b).readByte c = s.readByte c := rfl

/-! ### `tick` -/

@[simp] theorem State.tick_v (s : State) :
    s.tick.v = s.v := rfl

@[simp] theorem State.tick_index (s : State) :
    s.tick.index = s.index := rfl

@[simp] theorem State.tick_pc (s : State) :
    s.tick.pc = s.pc := rfl

@[simp] theorem State.tick_sp (s : State) :
    s.tick.sp = s.sp := rfl

@[simp] theorem State.tick_stack (s : State) :
    s.tick.stack = s.stack := rfl

@[simp] theorem State.tick_dt (s : State) :
    s.tick.dt = if s.dt > 0 then s.dt - 1 else s.dt := rfl

@[simp] theorem State.tick_st (s : State) :
    s.tick.st = if s.st > 0 then s.st - 1 else s.st := rfl

@[simp] theorem State.tick_fb (s : State) :
    s.tick.fb = s.fb := rfl

@[simp] theorem State.tick_keys (s : State) :
    s.tick.keys = s.keys := rfl

@[simp] theorem State.tick_mem (s : State) :
    s.tick.mem = s.mem := rfl

@[simp] theorem State.tick_status (s : State) :
    s.tick.status = s.status := rfl

@[simp] theorem State.tick_draw (s : State) :
    s.tick.draw = s.draw := rfl

@[simp] theorem State.tick_pending (s : State) :
    s.tick.pending = s.pending := rfl

@[simp] theorem State.tick_freeIdx (s : State) :
    s.tick.freeIdx = s.freeIdx := rfl

@[simp] theorem State.tick_reg (s : State) (q : RegNum) :
    s.tick.reg q = s.reg q := rfl

@[simp] theorem State.tick_readByte (s : State) (c : Nat) :
    s.tick.readByte c = s.readByte c := rfl

/-! ### `ticks` -/

@[simp] theorem State.ticks_v (s : State) (k : Nat) :
    (s.ticks k).v = s.v := rfl

@[simp] theorem State.ticks_index (s : State) (k : Nat) :
    (s.ticks k).index = s.index := rfl

@[simp] theorem State.ticks_pc (s : State) (k : Nat) :
    (s.ticks k).pc = s.pc := rfl

@[simp] theorem State.ticks_sp (s : State) (k : Nat) :
    (s.ticks k).sp = s.sp := rfl

@[simp] theorem State.ticks_stack (s : State) (k : Nat) :
    (s.ticks k).stack = s.stack := rfl

@[simp] theorem State.ticks_dt (s : State) (k : Nat) :
    (s.ticks k).dt = countDown s.dt k := rfl

@[simp] theorem State.ticks_st (s : State) (k : Nat) :
    (s.ticks k).st = countDown s.st k := rfl

@[simp] theorem State.ticks_fb (s : State) (k : Nat) :
    (s.ticks k).fb = s.fb := rfl

@[simp] theorem State.ticks_keys (s : State) (k : Nat) :
    (s.ticks k).keys = s.keys := rfl

@[simp] theorem State.ticks_mem (s : State) (k : Nat) :
    (s.ticks k).mem = s.mem := rfl

@[simp] theorem State.ticks_status (s : State) (k : Nat) :
    (s.ticks k).status = s.status := rfl

@[simp] theorem State.ticks_draw (s : State) (k : Nat) :
    (s.ticks k).draw = s.draw := rfl

@[simp] theorem State.ticks_pending (s : State) (k : Nat) :
    (s.ticks k).pending = s.pending := rfl

@[simp] theorem State.ticks_freeIdx (s : State) (k : Nat) :
    (s.ticks k).freeIdx = s.freeIdx := rfl

@[simp] theorem State.ticks_reg (s : State) (k : Nat) (q : RegNum) :
    (s.ticks k).reg q = s.reg q := rfl

@[simp] theorem State.ticks_readByte (s : State) (k : Nat) (c : Nat) :
    (s.ticks k).readByte c = s.readByte c := rfl

/-! ### Reading a register back -/

@[simp] theorem State.setReg_reg (s : State) (r q : RegNum) (b : Byte) :
    (s.setReg r b).reg q = if q = r then b else s.reg q := by
  simp only [State.reg, State.setReg, Fin.getElem_fin, Vector.getElem_set, Fin.ext_iff, eq_comm]

@[simp] theorem State.setFlag_reg (s : State) (b : Bool) (q : RegNum) :
    (s.setFlag b).reg q = if q = Config.flagReg then flagByte b else s.reg q :=
  s.setReg_reg Config.flagReg q (flagByte b)

/-- Two states with the same registers have the same register file. -/
theorem State.v_eq_of_reg {s t : State} (h : ∀ r, t.reg r = s.reg r) : t.v = s.v := by
  refine Vector.ext fun k hk => ?_
  exact h ⟨k, hk⟩

end Sys2Proof.Machine
end

