-- ==== Sys2Proof/Laws/Memory.lean ====
section
/-! SUPPORT. Memory: a read after a write, the canonical form kept, runs of bytes (20_memory R52 to R58). -/

namespace Sys2Proof.Machine

set_option Elab.async false

theorem ea_lt (a : Nat) : ea a < Config.memSize := Nat.mod_lt _ (by decide)

@[simp] theorem ea_ea (a : Nat) : ea (ea a) = ea a := Nat.mod_mod _ _

/-- Distinct offsets below 4096 give distinct effective addresses. -/
theorem ea_add_inj {a j k : Nat} (hj : j < 4096) (hk : k < 4096) : ea (a + j) = ea (a + k) ↔ j = k := by
  simp only [ea, Config.memSize]; omega

/-! ### One byte -/

/-- A cell with a lower address than all the others is not among them. -/
theorem Memory.read_of_lt {m : Memory} {a : Nat} (h : ∀ c ∈ m, a < c.1) : m.read a = resetByte a := by
  induction m with
  | nil => rfl
  | cons c rest ih =>
    have hc : c.1 ≠ a := Nat.ne_of_gt (h c (by simp))
    simp only [Memory.read, hc, if_false]
    exact ih fun d hd => h d (by simp [hd])

/-- A read after a write, in a memory whose addresses rise. -/
theorem Memory.read_write {m : Memory} (h : m.Pairwise (fun c d => c.1 < d.1)) (a c : Nat) (b : Byte) :
    (m.write a b).read c = if c = a then b else m.read c := by
  induction m with
  | nil =>
    by_cases hb : b = resetByte a <;> by_cases hc : c = a <;> simp_all [Memory.write, Memory.read, eq_comm]
  | cons d rest ih =>
    obtain ⟨hd, hrest⟩ := List.pairwise_cons.1 h
    have hlow : ∀ e, e ≤ d.1 → Memory.read rest e = resetByte e :=
      fun e he => Memory.read_of_lt fun f hf => Nat.lt_of_le_of_lt he (hd f hf)
    simp only [Memory.write]
    by_cases h1 : a < d.1
    · rw [if_pos h1]
      by_cases hb : b = resetByte a <;> by_cases hc : c = a
      · subst hc; simp [Memory.read, Nat.ne_of_gt h1, hlow c (Nat.le_of_lt h1), hb]
      · simp [hb, hc]
      · simp [hb, hc, Memory.read]
      · simp [hb, hc, Memory.read, Ne.symm hc]
    · rw [if_neg h1]
      by_cases h2 : d.1 = a
      · subst h2
        rw [if_pos rfl]
        by_cases hb : b = resetByte d.1 <;> by_cases hc : c = d.1
        · subst hc; simp [hlow d.1 (Nat.le_refl _), hb]
        · simp [hb, hc, Memory.read, Ne.symm hc]
        · simp [hb, hc, Memory.read]
        · simp [hb, hc, Memory.read, Ne.symm hc]
      · rw [if_neg h2]
        by_cases hc : d.1 = c
        · subst hc; simp [Memory.read, h2]
        · simp [Memory.read, hc, ih hrest]

/-- What the cells of a memory are after a write. -/
theorem Memory.mem_write {m : Memory} {a : Nat} {b : Byte} {c : Host.Cell} (h : c ∈ m.write a b) :
    c ∈ m ∨ c = (a, b) ∧ b ≠ resetByte a := by
  induction m with
  | nil =>
    simp only [Memory.write] at h
    split_ifs at h with hb
    · cases h
    · exact .inr ⟨by simpa using h, hb⟩
  | cons d rest ih =>
    simp only [Memory.write] at h
    split_ifs at h with h1 h2 h3 h4
    · exact .inl h
    · rcases List.mem_cons.1 h with rfl | h
      · exact .inr ⟨rfl, h2⟩
      · exact .inl h
    · exact .inl (List.mem_cons_of_mem _ h)
    · rcases List.mem_cons.1 h with rfl | h
      · exact .inr ⟨rfl, h4⟩
      · exact .inl (List.mem_cons_of_mem _ h)
    · rcases List.mem_cons.1 h with rfl | h
      · exact .inl (by simp)
      · exact (ih h).imp_left (List.mem_cons_of_mem _)

theorem Memory.pairwise_write {m : Memory} (h : m.Pairwise (fun c d => c.1 < d.1)) (a : Nat) (b : Byte) :
    (m.write a b).Pairwise (fun c d => c.1 < d.1) := by
  induction m with
  | nil => simp only [Memory.write]; split_ifs <;> simp
  | cons d rest ih =>
    obtain ⟨hd, hrest⟩ := List.pairwise_cons.1 h
    simp only [Memory.write]
    split_ifs with h1 h2 h3 h4
    · exact h
    · refine List.pairwise_cons.2 ⟨fun e he => ?_, h⟩
      rcases List.mem_cons.1 he with rfl | he
      · exact h1
      · exact Nat.lt_trans h1 (hd e he)
    · exact hrest
    · exact List.pairwise_cons.2 ⟨fun e he => h3 ▸ hd e he, hrest⟩
    · refine List.pairwise_cons.2 ⟨fun e he => ?_, ih hrest⟩
      rcases Memory.mem_write he with he | ⟨rfl, -⟩
      · exact hd e he
      · show d.1 < a; omega

/-- A write to an address of the space keeps the canonical form. -/
theorem Memory.wf_write {m : Memory} (h : m.wf) {a : Nat} (ha : a < Config.memSize) (b : Byte) : (m.write a b).wf :=
  ⟨Memory.pairwise_write h.1 a b, fun c hc => by
    rcases Memory.mem_write hc with hc | ⟨rfl, hb⟩
    · exact h.2 c hc
    · exact ⟨ha, hb⟩⟩

/-- Equal bytes everywhere make equal memories: the form is canonical. -/
theorem Memory.eq_of_read {m n : Memory} (hm : m.wf) (hn : n.wf) (h : ∀ a, m.read a = n.read a) : m = n := by
  have head : ∀ (c : Host.Cell) (rest m : Memory), Memory.wf (c :: rest) → (∀ e ∈ m, c.1 < e.1) →
      Memory.read m c.1 ≠ Memory.read (c :: rest) c.1 := by
    intro c rest m hc hlow he
    rw [Memory.read_of_lt hlow] at he
    exact (hc.2 c (by simp)).2 (by simpa [Memory.read] using he.symm)
  induction m generalizing n with
  | nil =>
    cases n with
    | nil => rfl
    | cons d n => exact absurd (h d.1) (head d n [] hn (by simp))
  | cons c m ih =>
    obtain ⟨hc, hm'⟩ := List.pairwise_cons.1 hm.1
    cases n with
    | nil => exact absurd (h c.1).symm (head c m [] hm (by simp))
    | cons d n =>
      obtain ⟨hd, hn'⟩ := List.pairwise_cons.1 hn.1
      have hlt : ¬ c.1 < d.1 := fun hlt => by
        refine absurd (h c.1).symm (head c m _ hm fun e he => ?_)
        rcases List.mem_cons.1 he with rfl | he
        · exact hlt
        · exact Nat.lt_trans hlt (hd e he)
      have hgt : ¬ d.1 < c.1 := fun hlt => by
        refine absurd (h d.1) (head d n _ hn fun e he => ?_)
        rcases List.mem_cons.1 he with rfl | he
        · exact hlt
        · exact Nat.lt_trans hlt (hc e he)
      have h1 : c.1 = d.1 := by omega
      have h2 : c.2 = d.2 := by simpa [Memory.read, h1] using h c.1
      have hcd : c = d := Prod.ext h1 h2
      subst hcd
      congr 1
      refine ih ⟨hm', fun e he => hm.2 e (by simp [he])⟩ ⟨hn', fun e he => hn.2 e (by simp [he])⟩ fun a => ?_
      by_cases ha : c.1 = a
      · subst ha; rw [Memory.read_of_lt hc, Memory.read_of_lt hd]
      · simpa [Memory.read, ha] using h a

/-! ### Runs of bytes -/

theorem Memory.wf_writeList {m : Memory} (h : m.wf) {a : Nat} {bs : List Byte} (hb : a + bs.length ≤ Config.memSize) :
    (m.writeList a bs).wf := by
  induction bs generalizing a with
  | nil => exact h
  | cons b bs ih =>
    simp only [List.length_cons] at hb
    exact Memory.wf_write (ih (a := a + 1) (by omega)) (by omega) b

/-- Every byte after an image is placed: the image's inside its range, the old one outside. -/
theorem Memory.read_writeList {m : Memory} (h : m.wf) {a : Nat} {bs : List Byte}
    (hb : a + bs.length ≤ Config.memSize) (c : Nat) :
    (m.writeList a bs).read c = if a ≤ c then bs.getD (c - a) (m.read c) else m.read c := by
  induction bs generalizing a with
  | nil => simp [Memory.writeList]
  | cons b bs ih =>
    simp only [List.length_cons] at hb
    have hb' : a + 1 + bs.length ≤ Config.memSize := by omega
    rw [Memory.writeList, Memory.read_write (Memory.wf_writeList h hb').1, ih hb']
    by_cases hc : c = a
    · simp [hc]
    · by_cases hac : a ≤ c
      · obtain ⟨k, rfl⟩ : ∃ k, c = a + 1 + k := ⟨c - a - 1, by omega⟩
        have e1 : a + 1 + k - a = k + 1 := by omega
        have e2 : a + 1 + k - (a + 1) = k := by omega
        simp [hc, hac, e1, e2]
      · simp [hc, hac, show ¬ a + 1 ≤ c by omega]

/-! ### The state's view -/

@[simp] theorem State.readByte_ea (s : State) (a : Nat) : s.readByte (ea a) = s.readByte a := by
  simp [State.readByte]

/-- Equal effective addresses read the same byte (20_memory R55). -/
theorem State.readByte_congr (s : State) {a c : Nat} (h : ea a = ea c) : s.readByte a = s.readByte c := by
  simp [State.readByte, h]

theorem State.writeByte_inv {s : State} (h : s.mem.wf) (a : Nat) (b : Byte) : (s.writeByte a b).mem.wf :=
  Memory.wf_write h (ea_lt a) b

/-- A write changes only the byte addressed (20_memory R58). -/
theorem State.readByte_writeByte {s : State} (h : s.mem.wf) (a c : Nat) (b : Byte) :
    (s.writeByte a b).readByte c = if ea c = ea a then b else s.readByte c :=
  Memory.read_write h.1 (ea a) (ea c) b

theorem State.writeBytes_inv {s : State} (h : s.mem.wf) (a : Nat) (bs : List Byte) : (s.writeBytes a bs).mem.wf := by
  induction bs generalizing s a with
  | nil => exact h
  | cons b bs ih => exact ih (State.writeByte_inv h a b) (a + 1)

/-- A run of bytes written changes the memory only. -/
theorem State.writeBytes_frame (s : State) (a : Nat) (bs : List Byte) :
    ∃ m, s.writeBytes a bs = { s with mem := m } := by
  induction bs generalizing s a with
  | nil => exact ⟨s.mem, rfl⟩
  | cons b bs ih =>
    obtain ⟨m, hm⟩ := ih (s.writeByte a b) (a + 1)
    exact ⟨m, hm⟩

/-- Outside the addresses of the run every byte is as before. -/
theorem State.readByte_writeBytes_of_ne {s : State} (h : s.mem.wf) {a c : Nat} {bs : List Byte}
    (hc : ∀ k < bs.length, ea c ≠ ea (a + k)) : (s.writeBytes a bs).readByte c = s.readByte c := by
  induction bs generalizing s a with
  | nil => rfl
  | cons b bs ih =>
    have h0 : ea c ≠ ea a := hc 0 (by simp)
    rw [State.writeBytes, ih (State.writeByte_inv h a b), State.readByte_writeByte h, if_neg h0]
    intro k hk
    have := hc (k + 1) (by simpa using hk)
    rwa [show a + (k + 1) = a + 1 + k by omega] at this

/-- Inside a run that does not wrap onto itself each byte is the one written. -/
theorem State.readByte_writeBytes {s : State} (h : s.mem.wf) {a k : Nat} {bs : List Byte}
    (hlen : bs.length ≤ Config.memSize) (hk : k < bs.length) :
    (s.writeBytes a bs).readByte (a + k) = bs[k] := by
  induction bs generalizing s a k with
  | nil => simp at hk
  | cons b bs ih =>
    simp only [List.length_cons, Config.memSize] at hlen hk
    cases k with
    | zero =>
      rw [State.writeBytes, State.readByte_writeBytes_of_ne (State.writeByte_inv h a b), State.readByte_writeByte h]
      · simp
      · intro k hk
        rw [show a + 1 + k = a + (k + 1) by omega]
        exact fun e => absurd ((ea_add_inj (by omega) (by omega)).1 e) (by omega)
    | succ k =>
      rw [State.writeBytes, show a + (k + 1) = a + 1 + k by omega]
      exact ih (State.writeByte_inv h a b) (by simp only [Config.memSize]; omega) (by omega)

end Sys2Proof.Machine
end

