-- ==== Sys2Proof/Laws/Operands.lean ====
section
/-! SUPPORT. The operand forms: the run of registers V[0] to V[x], register load, the lowest key, framebuffer cells. -/

namespace Sys2Proof.Machine

set_option Elab.async false

/-! ### The run of registers of FX55 and FX65 (43_index_memory R174, R175) -/

theorem mem_regsUpTo {x r : RegNum} : r ∈ regsUpTo x ↔ r ≤ x := by simp [regsUpTo]

theorem regsUpTo_length (x : RegNum) : (regsUpTo x).length = x.val + 1 := by decide +revert

/-- The k-th register of the run is register k. -/
theorem regsUpTo_get (x : RegNum) (k : Fin 16) (hk : k ≤ x) :
    (regsUpTo x)[k.val]'(by rw [regsUpTo_length]; exact Nat.lt_succ_of_le hk) = k := by
  revert x k; decide

theorem regsUpTo_nodup (x : RegNum) : (regsUpTo x).Nodup := by decide +revert

/-- A run of register loads changes the register file only. -/
theorem State.loadRegs_frame (s : State) (ks : List RegNum) : ∃ v, s.loadRegs ks = { s with v := v } := by
  induction ks generalizing s with
  | nil => exact ⟨s.v, rfl⟩
  | cons k ks ih =>
    obtain ⟨v, hv⟩ := ih (s.setReg k (s.readByte (s.indexAddr k)))
    exact ⟨v, hv⟩

/-- Each register of the run holds its byte of memory, and no other register changes. -/
theorem State.loadRegs_reg (s : State) (ks : List RegNum) (r : RegNum) :
    (s.loadRegs ks).reg r = if r ∈ ks then s.readByte (s.indexAddr r) else s.reg r := by
  induction ks generalizing s with
  | nil => simp [State.loadRegs]
  | cons k ks ih =>
    have := ih (s.setReg k (s.readByte (s.indexAddr k)))
    simp only [State.loadRegs, List.foldl_cons] at this ⊢
    rw [this]
    by_cases hr : r ∈ ks <;> by_cases hk : r = k <;> simp_all [State.indexAddr]

/-! ### Keys (45_keys_timers R203) -/

theorem lowestKey_eq_none {keys : KeySet} : lowestKey keys = none ↔ keys = 0 := by
  simp only [lowestKey, List.find?_eq_none, List.mem_finRange, true_implies, Bool.not_eq_true]
  constructor
  · intro h
    exact BitVec.eq_of_getLsbD_eq fun k hk => by simpa using h ⟨k, hk⟩
  · rintro rfl k; simp

/-- The key found is pressed, and no lower one is. -/
theorem lowestKey_eq_some {keys : KeySet} {k : Fin 16} (h : lowestKey keys = some k) :
    keys.getLsbD k = true ∧ ∀ j < k, keys.getLsbD j = false := by
  refine ⟨by simpa using List.find?_some h, fun j hj => ?_⟩
  obtain ⟨-, as, bs, hl, hlow⟩ := List.find?_eq_some_iff_append.1 h
  have hmem : j ∈ as := by
    have hall : j ∈ as ++ k :: bs := hl ▸ List.mem_finRange j
    rcases List.mem_append.1 hall with hj' | hj'
    · exact hj'
    · exfalso
      have hsorted : (as ++ k :: bs).Pairwise (· < ·) := hl ▸ List.pairwise_lt_finRange 16
      rcases List.mem_cons.1 hj' with rfl | hj'
      · exact lt_irrefl _ hj
      · exact lt_asymm hj ((List.pairwise_cons.1 (List.pairwise_append.1 hsorted).2.1).1 j hj')
  simpa using hlow j hmem

/-! ### Framebuffer cells (10_state R30) -/

/-- Coordinates count modulo the dimensions. -/
theorem pixel_congr (f : Framebuffer) {px py qx qy : Nat} (hx : px % 64 = qx % 64) (hy : py % 32 = qy % 32) :
    pixel f px py = pixel f qx qy := by
  simp only [pixel, Config.fbWidth, Config.fbHeight, hx, hy]

/-- A cell written reads back; every other cell is as before. -/
theorem pixel_setPixel (f : Framebuffer) (px py qx qy : Nat) (b : Bool) :
    pixel (setPixel f px py b) qx qy = if qx % 64 = px % 64 ∧ qy % 32 = py % 32 then b else pixel f qx qy := by
  simp only [pixel, setPixel, Config.fbWidth, Config.fbHeight]
  by_cases hy : qy % 32 = py % 32
  · by_cases hx : qx % 64 = px % 64
    · simp [hx, hy]
    · simp [hx, hy, Ne.symm hx]
  · simp [hy, Ne.symm hy]

/-- Two framebuffers with the same cells are equal. -/
theorem framebuffer_ext {f g : Framebuffer} (h : ∀ px < 64, ∀ py < 32, pixel f px py = pixel g px py) : f = g := by
  refine Vector.ext fun py hpy => Vector.ext fun px hpx => ?_
  have := h px hpx py hpy
  simpa only [pixel, Config.fbWidth, Config.fbHeight, Nat.mod_eq_of_lt hpx, Nat.mod_eq_of_lt hpy] using this

end Sys2Proof.Machine
end

