-- ==== Sys2Proof/Laws/Display.lean ====
section
/-! SUPPORT. The sprite blitter: what its loops leave in every cell, and when they report a collision (44_display R191,
R192). Cells are named by coordinates counted modulo the dimensions. -/

namespace Sys2Proof.Machine

set_option Elab.async false

/-- A column touches one cell, and only when its bit is 1. -/
theorem blitColumn_spec (b : Byte) (px py : Nat) (acc : Framebuffer × Bool) (c qx qy : Nat) :
    pixel (blitColumn b px py acc c).1 qx qy =
      (pixel acc.1 qx qy ^^ (b.getLsbD (7 - c) && decide (qx % 64 = (px + c) % 64 ∧ qy % 32 = py % 32))) ∧
    (blitColumn b px py acc c).2 = (acc.2 || (b.getLsbD (7 - c) && pixel acc.1 (px + c) py)) := by
  unfold blitColumn
  by_cases hb : b.getLsbD (7 - c) = true
  · simp only [hb, if_true, Bool.true_and, and_true, pixel_setPixel]
    split
    · rename_i h
      simp [h, pixel_congr acc.1 h.1 h.2]
    · rename_i h
      simp [h]
  · simp [hb]

/-- The column offset of a cell from an origin. -/
def columnOf (px qx : Nat) : Nat := (qx + 64 - px % 64) % 64

theorem columnOf_eq {px qx c : Nat} (hc : c < 64) : columnOf px qx = c ↔ qx % 64 = (px + c) % 64 := by
  simp only [columnOf]; omega

/-- The first `k` columns of a row. -/
theorem blitColumns_spec (b : Byte) (px py : Nat) (acc : Framebuffer × Bool) {k : Nat} (hk : k ≤ 8) :
    (∀ qx qy, pixel ((List.range k).foldl (blitColumn b px py) acc).1 qx qy =
      (pixel acc.1 qx qy ^^
        (decide (columnOf px qx < k) && decide (qy % 32 = py % 32) && b.getLsbD (7 - columnOf px qx)))) ∧
    (((List.range k).foldl (blitColumn b px py) acc).2 = true ↔
      acc.2 = true ∨ ∃ c < k, b.getLsbD (7 - c) = true ∧ pixel acc.1 (px + c) py = true) := by
  induction k with
  | zero => simp
  | succ k ih =>
    obtain ⟨ih1, ih2⟩ := ih (by omega)
    rw [List.range_succ, List.foldl_append, List.foldl_cons, List.foldl_nil]
    generalize (List.range k).foldl (blitColumn b px py) acc = acc' at ih1 ih2
    constructor
    · intro qx qy
      rw [(blitColumn_spec b px py acc' k qx qy).1, ih1]
      have hcol := columnOf_eq (px := px) (qx := qx) (c := k) (by omega)
      by_cases hq : qy % 32 = py % 32 <;> by_cases h1 : columnOf px qx = k
      · simp [hq, h1, hcol.1 h1]
      · have h2 : ¬ qx % 64 = (px + k) % 64 := fun h => h1 (hcol.2 h)
        have h3 : columnOf px qx < k + 1 ↔ columnOf px qx < k := by omega
        simp [hq, h2, h3]
      · simp [hq]
      · simp [hq]
    · rw [(blitColumn_spec b px py acc' k 0 0).2, Bool.or_eq_true, Bool.and_eq_true, ih2]
      have hself : columnOf px (px + k) = k := (columnOf_eq (by omega)).2 rfl
      have hpix : pixel acc'.1 (px + k) py = pixel acc.1 (px + k) py := by simp [ih1, hself]
      rw [hpix]
      constructor
      · rintro ((h | ⟨c, hc, h⟩) | h)
        · exact .inl h
        · exact .inr ⟨c, by omega, h⟩
        · exact .inr ⟨k, by omega, h⟩
      · rintro (h | ⟨c, hc, h⟩)
        · exact .inl (.inl h)
        · rcases Nat.lt_succ_iff_lt_or_eq.1 hc with hc | rfl
          · exact .inl (.inr ⟨c, hc, h⟩)
          · exact .inr h

/-- One row: its bits are XORed onto the eight cells, and a collision is a set bit on a set cell. -/
theorem blitRow_spec (b : Byte) (px py : Nat) (acc : Framebuffer × Bool) :
    (∀ qx qy, pixel (blitRow b px py acc).1 qx qy =
      (pixel acc.1 qx qy ^^
        (decide (columnOf px qx < 8) && decide (qy % 32 = py % 32) && b.getLsbD (7 - columnOf px qx)))) ∧
    ((blitRow b px py acc).2 = true ↔
      acc.2 = true ∨ ∃ c < 8, b.getLsbD (7 - c) = true ∧ pixel acc.1 (px + c) py = true) :=
  blitColumns_spec b px py acc (Nat.le_refl 8)

/-- The row offset of a cell from an origin. -/
def rowOf (py qy : Nat) : Nat := (qy + 32 - py % 32) % 32

/-- A whole sprite of at most 32 rows: each row byte is XORed onto its row, each cell once, and a collision is a set bit
on a cell that was set before the instruction (R192). -/
theorem blitRows_spec (px py : Nat) (bs : List Byte) (acc : Framebuffer × Bool) (hlen : bs.length ≤ 32) :
    (∀ qx qy, pixel (blitRows px py bs acc).1 qx qy =
      (pixel acc.1 qx qy ^^
        (decide (columnOf px qx < 8) && (bs.getD (rowOf py qy) 0).getLsbD (7 - columnOf px qx)))) ∧
    ((blitRows px py bs acc).2 = true ↔
      acc.2 = true ∨ ∃ r < bs.length, ∃ c < 8,
        (bs.getD r 0).getLsbD (7 - c) = true ∧ pixel acc.1 (px + c) (py + r) = true) := by
  induction bs generalizing py acc with
  | nil => simp [blitRows]
  | cons b bs ih =>
    simp only [List.length_cons] at hlen
    obtain ⟨ih1, ih2⟩ := ih (py + 1) (blitRow b px py acc) (by omega)
    obtain ⟨h1, h2⟩ := blitRow_spec b px py acc
    rw [blitRows]
    constructor
    · intro qx qy
      rw [ih1, h1]
      by_cases hq : qy % 32 = py % 32
      · have e0 : rowOf py qy = 0 := by simp only [rowOf]; omega
        have e1 : bs.length ≤ rowOf (py + 1) qy := by simp only [rowOf]; omega
        simp [hq, e0, List.getElem?_eq_none e1]
      · obtain ⟨k, hk⟩ : ∃ k, rowOf py qy = k + 1 := ⟨rowOf py qy - 1, by simp only [rowOf]; omega⟩
        have hk' : rowOf (py + 1) qy = k := by simp only [rowOf] at hk ⊢; omega
        simp [hq, hk, hk']
    · rw [ih2, h2]
      have hpix : ∀ r < bs.length, ∀ c, pixel (blitRow b px py acc).1 (px + c) (py + 1 + r) =
          pixel acc.1 (px + c) (py + (r + 1)) := by
        intro r hr c
        rw [h1, show py + 1 + r = py + (r + 1) by omega]
        have : ¬ (py + (r + 1)) % 32 = py % 32 := by omega
        simp [this]
      constructor
      · rintro ((h | ⟨c, hc, hb, hp⟩) | ⟨r, hr, c, hc, hb, hp⟩)
        · exact .inl h
        · exact .inr ⟨0, by simp, c, hc, by simpa using hb, by simpa using hp⟩
        · exact .inr ⟨r + 1, by simpa using hr, c, hc, by simpa using hb, hpix r hr c ▸ hp⟩
      · rintro (h | ⟨r, hr, c, hc, hb, hp⟩)
        · exact .inl (.inl h)
        · cases r with
          | zero => exact .inl (.inr ⟨c, hc, by simpa using hb, by simpa using hp⟩)
          | succ r =>
            have hr' : r < bs.length := by simpa using hr
            exact .inr ⟨r, hr', c, hc, by simpa using hb, (hpix r hr' c).symm ▸ hp⟩

end Sys2Proof.Machine
end

