-- ==== Sys2Proof/Laws/Events.lean ====
section
/-! SUPPORT. The events: what each can answer, said once (40_cycle_and_dispatch R100, R110, R113; 70 R250). -/

namespace Sys2Proof.Machine

set_option Elab.async false

/-! ### Ticks -/

theorem countDown_zero (t : Byte) : countDown t 0 = t := by simp [countDown]

/-- One more tick is one tick after the others. -/
theorem State.ticks_succ (s : State) (k : Nat) : s.ticks (k + 1) = (s.ticks k).tick := by
  have key : ∀ t : Byte, countDown t (k + 1) = if countDown t k > 0 then countDown t k - 1 else countDown t k := by
    intro t
    have h1 : t.toNat < 256 := t.isLt
    apply BitVec.eq_of_toNat_eq
    by_cases h : t.toNat ≤ k
    · simp [countDown, Nat.sub_eq_zero_of_le h, Nat.sub_eq_zero_of_le (Nat.le_succ_of_le h)]
    · have hp : countDown t k > 0 := by simp [countDown, BitVec.lt_def]; omega
      simp only [hp, if_true, BitVec.toNat_sub]
      simp [countDown]; omega
  simp [State.ticks, State.tick, key]

/-- `k` ticks in a row are the ticks done one by one. -/
theorem State.ticks_eq_iterate (s : State) (k : Nat) : s.ticks k = State.tick^[k] s := by
  induction k with
  | zero => simp [State.ticks, countDown_zero]
  | succ k ih => rw [State.ticks_succ, ih, Function.iterate_succ_apply']

/-! ### What an event answers -/

theorem thenTicks_next {k : Nat} {o : Host.Outcome State Fault Refusal} {t : State} (h : thenTicks k o = .next t) :
    ∃ u, o = .next u ∧ t = u.ticks k := by
  cases o with
  | next u => exact ⟨u, rfl, by simpa [thenTicks] using h.symm⟩
  | fault f => simp [thenTicks] at h
  | refused r => simp [thenTicks] at h

theorem whenRunning_next {s t : State} {e : State → Host.Outcome State Fault Refusal} (h : whenRunning s e = .next t) :
    s.status = .running ∧ e s = .next t := by
  simp only [whenRunning] at h
  split at h
  · exact ⟨‹_›, h⟩
  · cases h

theorem runCycle_next {s t : State} {keys : KeySet} {draw : Byte} (h : runCycle keys draw s = .next t) :
    ∃ i, decodeWord s.fetchWord = .ok i ∧ exec i { s with keys := keys, draw := draw, pc := s.pc + 2 } = .next t := by
  simp only [runCycle] at h
  split at h
  · exact ⟨_, ‹_›, h⟩
  · cases h

theorem State.ofImage_status (image : List Byte) :
    (State.ofImage image).status =
      if image.length ≤ Config.maxImage then .running else .faulted (.loadOverflow image.length) := by
  unfold State.ofImage; split <;> rfl

theorem State.ofImage_inv {image : List Byte} (h : image.length ≤ Config.maxImage) : (State.ofImage image).mem.wf := by
  have h0 : Memory.wf State.reset.mem := ⟨List.Pairwise.nil, by simp [State.reset]⟩
  rw [State.ofImage, if_pos h]
  exact Memory.wf_writeList h0 (by simp only [Config.maxImage, Config.loadAddr, Config.memSize] at *; omega)

theorem resetEvent_next {s t : State} {image : List Byte} (h : resetEvent image s = .next t) :
    image.length ≤ Config.maxImage ∧
      t = { State.ofImage image with pending := s.pending, freeIdx := s.freeIdx } := by
  have hs := State.ofImage_status image
  unfold resetEvent at h
  split at h
  · rename_i hr
    rw [hr] at hs
    exact ⟨by by_contra hl; simp [hl] at hs, by injection h with h; exact h.symm⟩
  · cases h

theorem resetEvent_overflow {image : List Byte} (h : Config.maxImage < image.length) (s : State) :
    resetEvent image s = .fault (.loadOverflow image.length) := by
  have hs := State.ofImage_status image
  rw [if_neg (Nat.not_le_of_lt h)] at hs
  unfold resetEvent
  split
  · rename_i hr; rw [hs] at hr; cases hr
  · rename_i f hf; rw [hs] at hf; cases hf; rfl

/-- Everything a step can do when it answers a next state: a new session, a cycle, a tick, or an unscripted cycle with
its ticks. -/
theorem step_next {s t : State} (h : step s = .next t) :
    (∃ image rest, s.pending = .reset image :: rest ∧ image.length ≤ Config.maxImage ∧
      t = { State.ofImage image with pending := rest, freeIdx := s.freeIdx }) ∨
    (∃ keys draw rest i, s.pending = .cycle keys draw :: rest ∧ s.status = .running ∧
      decodeWord s.fetchWord = .ok i ∧
      exec i { s with pending := rest, keys := keys, draw := draw, pc := s.pc + 2 } = .next t) ∨
    (∃ rest, s.pending = .tick :: rest ∧ s.status = .running ∧ t = State.tick { s with pending := rest }) ∨
    (∃ i u, s.pending = [] ∧ s.status = .running ∧ decodeWord s.fetchWord = .ok i ∧
      exec i { s with keys := Config.freeKeys s.freeIdx, draw := Config.freeDraw s.freeIdx, pc := s.pc + 2,
                      freeIdx := s.freeIdx + 1 } = .next u ∧
      t = u.ticks (Config.freeTicks s.freeIdx)) := by
  unfold step nextEvent at h
  split at h
  · obtain ⟨hl, ht⟩ := resetEvent_next h
    exact .inl ⟨_, _, ‹_›, hl, ht⟩
  · obtain ⟨hs, hr⟩ := whenRunning_next h
    obtain ⟨i, hd, he⟩ := runCycle_next hr
    exact .inr (.inl ⟨_, _, _, i, ‹_›, hs, hd, he⟩)
  · obtain ⟨hs, hr⟩ := whenRunning_next h
    exact .inr (.inr (.inl ⟨_, ‹_›, hs, by simpa using hr.symm⟩))
  · obtain ⟨u, hu, ht⟩ := thenTicks_next h
    obtain ⟨hs, hr⟩ := whenRunning_next hu
    obtain ⟨i, hd, he⟩ := runCycle_next hr
    exact .inr (.inr (.inr ⟨i, u, ‹_›, hs, hd, he, ht⟩))

end Sys2Proof.Machine
end

