-- ==== Sys2Proof/Laws/PerInstr.lean ====
section
/-! SUPPORT. The fields of the word forms, and that each constructor's word decodes to it. The family `RoundTrip` of
LAWS.json. -/

namespace Sys2Proof

set_option Elab.async false

/-! ### The fields of a word of each form (30_encoding R71, R72) -/

theorem fieldP_wordXK (p : BitVec 4) (x : RegNum) (kk : Byte) : fieldP (wordXK p x kk) = p := by
  ext k hk
  simp only [fieldP, wordXK, BitVec.getElem_extractLsb', BitVec.getLsbD_append]
  have h1 : ¬ 12 + k < 8 := by omega
  have h2 : ¬ 12 + k - 8 < 4 := by omega
  simp [h1, h2, show 12 + k - 8 - 4 = k by omega, BitVec.getLsbD_eq_getElem hk]

theorem fieldX_wordXK (p : BitVec 4) (x : RegNum) (kk : Byte) : fieldX (wordXK p x kk) = x := by
  have : (wordXK p x kk).extractLsb' 8 4 = BitVec.ofFin (w := 4) x := by
    ext k hk
    simp only [wordXK, BitVec.getElem_extractLsb', BitVec.getLsbD_append]
    simp [show ¬ 8 + k < 8 by omega, hk]
  simp only [fieldX, this]

theorem fieldKk_wordXK (p : BitVec 4) (x : RegNum) (kk : Byte) : fieldKk (wordXK p x kk) = kk := by
  ext k hk
  simp only [fieldKk, wordXK, BitVec.getElem_extractLsb', BitVec.getLsbD_append]
  simp only [Nat.zero_add, hk, if_true, BitVec.getLsbD_eq_getElem hk]

theorem fieldP_wordA (p : BitVec 4) (nnn : BitVec 12) : fieldP (wordA p nnn) = p := by
  ext k hk
  simp only [fieldP, wordA, BitVec.getElem_extractLsb', BitVec.getLsbD_append]
  simp [show ¬ 12 + k < 12 by omega, BitVec.getLsbD_eq_getElem hk]

theorem fieldNnn_wordA (p : BitVec 4) (nnn : BitVec 12) : fieldNnn (wordA p nnn) = nnn := by
  ext k hk
  simp only [fieldNnn, wordA, BitVec.getElem_extractLsb', BitVec.getLsbD_append]
  simp only [Nat.zero_add, hk, if_true, BitVec.getLsbD_eq_getElem hk]

/-- A format XYN word is a format XK word whose byte is `y` and `n`. -/
theorem wordXYN_eq (p : BitVec 4) (x y : RegNum) (n : BitVec 4) :
    wordXYN p x y n = wordXK p x (BitVec.ofFin (w := 4) y ++ n : BitVec 8) := rfl

theorem fieldY_wordXK (p : BitVec 4) (x : RegNum) (kk : Byte) :
    fieldY (wordXK p x kk) = (kk.extractLsb' 4 4).toFin := by
  have : (wordXK p x kk).extractLsb' 4 4 = kk.extractLsb' 4 4 := by
    ext k hk
    simp only [wordXK, BitVec.getElem_extractLsb', BitVec.getLsbD_append]
    simp [show 4 + k < 8 by omega]
  simp only [fieldY, this]

theorem fieldN_wordXK (p : BitVec 4) (x : RegNum) (kk : Byte) : fieldN (wordXK p x kk) = kk.extractLsb' 0 4 := by
  ext k hk
  simp only [fieldN, wordXK, BitVec.getElem_extractLsb', BitVec.getLsbD_append, show 0 + k < 8 by omega, if_true]

theorem fieldY_wordXYN (p : BitVec 4) (x y : RegNum) (n : BitVec 4) : fieldY (wordXYN p x y n) = y := by
  have : (BitVec.ofFin (w := 4) y ++ n : BitVec 8).extractLsb' 4 4 = BitVec.ofFin (w := 4) y := by
    ext k hk
    simp only [BitVec.getElem_extractLsb', BitVec.getLsbD_append]
    simp [hk]
  simp only [wordXYN_eq, fieldY_wordXK, this]

theorem fieldN_wordXYN (p : BitVec 4) (x y : RegNum) (n : BitVec 4) : fieldN (wordXYN p x y n) = n := by
  rw [wordXYN_eq, fieldN_wordXK]
  ext k hk
  simp only [BitVec.getElem_extractLsb', BitVec.getLsbD_append]
  simp [hk]

theorem fieldP_wordXYN (p : BitVec 4) (x y : RegNum) (n : BitVec 4) : fieldP (wordXYN p x y n) = p :=
  fieldP_wordXK p x _

theorem fieldX_wordXYN (p : BitVec 4) (x y : RegNum) (n : BitVec 4) : fieldX (wordXYN p x y n) = x :=
  fieldX_wordXK p x _

/-- The two bytes of a word give it back (20_memory R52). -/
theorem wordOfBytes_bytesOfWord (w : Word) : wordOfBytes (w.extractLsb' 8 8) (w.extractLsb' 0 8) = w := by
  refine BitVec.eq_of_getLsbD_eq fun k hk => ?_
  rw [wordOfBytes, BitVec.getLsbD_append]
  by_cases h : k < 8
  · simp [h]
  · simp [h, show k - 8 < 8 by omega, show 8 + (k - 8) = k by omega]

/-- Decoding the bytes of a word is decoding the word (30_encoding R70). -/
theorem decode_bytesOfWord (w : Word) (rest : List Byte) :
    decode (bytesOfWord w ++ rest) = (match decodeWord w with | .ok i => .ok (i, rest) | .error e => .error e) := by
  cases h : decodeWord w <;> simp [bytesOfWord, decode, wordOfBytes_bytesOfWord, h]

/-! ### The family RoundTrip -/

/-- A well-formed instruction's word decodes to it. -/
def Laws.RoundTrip.Statement (i : Instr) : Prop := i.wellFormed = true → decodeWord (encodeWord i) = .ok i

theorem Laws.RoundTrip.cls : Laws.RoundTrip.Statement .cls := fun _ => rfl

theorem Laws.RoundTrip.ret : Laws.RoundTrip.Statement .ret := fun _ => rfl

theorem Laws.RoundTrip.jp (nnn : BitVec 12) : Laws.RoundTrip.Statement (.jp nnn) := fun _ => by
  simp [decodeWord, encodeWord, fieldP_wordA, fieldNnn_wordA]

theorem Laws.RoundTrip.call (nnn : BitVec 12) : Laws.RoundTrip.Statement (.call nnn) := fun _ => by
  simp [decodeWord, encodeWord, fieldP_wordA, fieldNnn_wordA]

theorem Laws.RoundTrip.seImm (x : RegNum) (kk : Byte) : Laws.RoundTrip.Statement (.seImm x kk) := fun _ => by
  simp [decodeWord, encodeWord, fieldP_wordXK, fieldX_wordXK, fieldKk_wordXK]

theorem Laws.RoundTrip.sneImm (x : RegNum) (kk : Byte) : Laws.RoundTrip.Statement (.sneImm x kk) := fun _ => by
  simp [decodeWord, encodeWord, fieldP_wordXK, fieldX_wordXK, fieldKk_wordXK]

theorem Laws.RoundTrip.seReg (x y : RegNum) : Laws.RoundTrip.Statement (.seReg x y) := fun _ => by
  simp [decodeWord, encodeWord, fieldP_wordXYN, fieldX_wordXYN, fieldY_wordXYN]

theorem Laws.RoundTrip.ldImm (x : RegNum) (kk : Byte) : Laws.RoundTrip.Statement (.ldImm x kk) := fun _ => by
  simp [decodeWord, encodeWord, fieldP_wordXK, fieldX_wordXK, fieldKk_wordXK]

theorem Laws.RoundTrip.addImm (x : RegNum) (kk : Byte) : Laws.RoundTrip.Statement (.addImm x kk) := fun _ => by
  simp [decodeWord, encodeWord, fieldP_wordXK, fieldX_wordXK, fieldKk_wordXK]

theorem Laws.RoundTrip.ldReg (x y : RegNum) : Laws.RoundTrip.Statement (.ldReg x y) := fun _ => by
  simp [decodeWord, encodeWord, fieldP_wordXYN, fieldX_wordXYN, fieldY_wordXYN, fieldN_wordXYN]

theorem Laws.RoundTrip.orReg (x y : RegNum) : Laws.RoundTrip.Statement (.orReg x y) := fun _ => by
  simp [decodeWord, encodeWord, fieldP_wordXYN, fieldX_wordXYN, fieldY_wordXYN, fieldN_wordXYN]

theorem Laws.RoundTrip.andReg (x y : RegNum) : Laws.RoundTrip.Statement (.andReg x y) := fun _ => by
  simp [decodeWord, encodeWord, fieldP_wordXYN, fieldX_wordXYN, fieldY_wordXYN, fieldN_wordXYN]

theorem Laws.RoundTrip.xorReg (x y : RegNum) : Laws.RoundTrip.Statement (.xorReg x y) := fun _ => by
  simp [decodeWord, encodeWord, fieldP_wordXYN, fieldX_wordXYN, fieldY_wordXYN, fieldN_wordXYN]

theorem Laws.RoundTrip.addReg (x y : RegNum) : Laws.RoundTrip.Statement (.addReg x y) := fun _ => by
  simp [decodeWord, encodeWord, fieldP_wordXYN, fieldX_wordXYN, fieldY_wordXYN, fieldN_wordXYN]

theorem Laws.RoundTrip.subReg (x y : RegNum) : Laws.RoundTrip.Statement (.subReg x y) := fun _ => by
  simp [decodeWord, encodeWord, fieldP_wordXYN, fieldX_wordXYN, fieldY_wordXYN, fieldN_wordXYN]

theorem Laws.RoundTrip.shr (x : RegNum) : Laws.RoundTrip.Statement (.shr x) := fun _ => by
  simp [decodeWord, encodeWord, fieldP_wordXYN, fieldX_wordXYN, fieldN_wordXYN]

theorem Laws.RoundTrip.subnReg (x y : RegNum) : Laws.RoundTrip.Statement (.subnReg x y) := fun _ => by
  simp [decodeWord, encodeWord, fieldP_wordXYN, fieldX_wordXYN, fieldY_wordXYN, fieldN_wordXYN]

theorem Laws.RoundTrip.shl (x : RegNum) : Laws.RoundTrip.Statement (.shl x) := fun _ => by
  simp [decodeWord, encodeWord, fieldP_wordXYN, fieldX_wordXYN, fieldN_wordXYN]

theorem Laws.RoundTrip.sneReg (x y : RegNum) : Laws.RoundTrip.Statement (.sneReg x y) := fun _ => by
  simp [decodeWord, encodeWord, fieldP_wordXYN, fieldX_wordXYN, fieldY_wordXYN]

theorem Laws.RoundTrip.ldI (nnn : BitVec 12) : Laws.RoundTrip.Statement (.ldI nnn) := fun _ => by
  simp [decodeWord, encodeWord, fieldP_wordA, fieldNnn_wordA]

theorem Laws.RoundTrip.jpV0 (nnn : BitVec 12) : Laws.RoundTrip.Statement (.jpV0 nnn) := fun _ => by
  simp [decodeWord, encodeWord, fieldP_wordA, fieldNnn_wordA]

theorem Laws.RoundTrip.rnd (x : RegNum) (kk : Byte) : Laws.RoundTrip.Statement (.rnd x kk) := fun _ => by
  simp [decodeWord, encodeWord, fieldP_wordXK, fieldX_wordXK, fieldKk_wordXK]

theorem Laws.RoundTrip.drw (x y : RegNum) (n : Nat) : Laws.RoundTrip.Statement (.drw x y n) := fun h => by
  have hn : n < 16 := by simpa [Instr.wellFormed] using h
  simp [decodeWord, encodeWord, fieldP_wordXYN, fieldX_wordXYN, fieldY_wordXYN, fieldN_wordXYN, Nat.mod_eq_of_lt hn]

theorem Laws.RoundTrip.skp (x : RegNum) : Laws.RoundTrip.Statement (.skp x) := fun _ => by
  simp [decodeWord, encodeWord, fieldP_wordXK, fieldX_wordXK, fieldKk_wordXK]

theorem Laws.RoundTrip.sknp (x : RegNum) : Laws.RoundTrip.Statement (.sknp x) := fun _ => by
  simp [decodeWord, encodeWord, fieldP_wordXK, fieldX_wordXK, fieldKk_wordXK]

theorem Laws.RoundTrip.ldVxDt (x : RegNum) : Laws.RoundTrip.Statement (.ldVxDt x) := fun _ => by
  simp [decodeWord, encodeWord, fieldP_wordXK, fieldX_wordXK, fieldKk_wordXK]

theorem Laws.RoundTrip.ldVxKey (x : RegNum) : Laws.RoundTrip.Statement (.ldVxKey x) := fun _ => by
  simp [decodeWord, encodeWord, fieldP_wordXK, fieldX_wordXK, fieldKk_wordXK]

theorem Laws.RoundTrip.ldDtVx (x : RegNum) : Laws.RoundTrip.Statement (.ldDtVx x) := fun _ => by
  simp [decodeWord, encodeWord, fieldP_wordXK, fieldX_wordXK, fieldKk_wordXK]

theorem Laws.RoundTrip.ldStVx (x : RegNum) : Laws.RoundTrip.Statement (.ldStVx x) := fun _ => by
  simp [decodeWord, encodeWord, fieldP_wordXK, fieldX_wordXK, fieldKk_wordXK]

theorem Laws.RoundTrip.addI (x : RegNum) : Laws.RoundTrip.Statement (.addI x) := fun _ => by
  simp [decodeWord, encodeWord, fieldP_wordXK, fieldX_wordXK, fieldKk_wordXK]

theorem Laws.RoundTrip.ldFont (x : RegNum) : Laws.RoundTrip.Statement (.ldFont x) := fun _ => by
  simp [decodeWord, encodeWord, fieldP_wordXK, fieldX_wordXK, fieldKk_wordXK]

theorem Laws.RoundTrip.ldBcd (x : RegNum) : Laws.RoundTrip.Statement (.ldBcd x) := fun _ => by
  simp [decodeWord, encodeWord, fieldP_wordXK, fieldX_wordXK, fieldKk_wordXK]

theorem Laws.RoundTrip.dump (x : RegNum) : Laws.RoundTrip.Statement (.dump x) := fun _ => by
  simp [decodeWord, encodeWord, fieldP_wordXK, fieldX_wordXK, fieldKk_wordXK]

theorem Laws.RoundTrip.load (x : RegNum) : Laws.RoundTrip.Statement (.load x) := fun _ => by
  simp [decodeWord, encodeWord, fieldP_wordXK, fieldX_wordXK, fieldKk_wordXK]

end Sys2Proof
end

