-- ==== Sys2Proof/Tests/Slice0.lean ====
section
/-! SUPPORT. The model's own tests: each instruction on a vector of spec/95_test_vectors.md (its label in the comment), the
decoding of a written-out word for every constructor, the well-formedness smoke test, and a witness for the hypotheses
of every obligation that has some. -/

namespace Sys2Proof.Tests

set_option Elab.async false

open Sys2Proof.Machine

/-! ### Helpers -/

/-- Reset of an image, with the events to come. -/
def boot (image : List Byte) (events : List HostEvent) : State := { State.ofImage image with pending := events }

/-- One cycle with no key and a zero draw. -/
def quiet : List HostEvent := [.cycle 0 0]

/-- What one step leaves, seen through `f`. -/
def after {α : Type} (s : State) (f : State → α) : Option α :=
  match step s with
  | .next t => some (f t)
  | .fault _ => none
  | .refused _ => none

/-- The fault one step ends in, if it does. -/
def faultOf (s : State) : Option Fault :=
  match step s with
  | .next _ => none
  | .fault f => some f
  | .refused _ => none

/-- Registers set one after the other. -/
def withRegs (s : State) (rs : List (RegNum × Byte)) : State := rs.foldl (fun t r => t.setReg r.1 r.2) s

/-- The set cells of a framebuffer, row by row. -/
def cellsOf (f : Framebuffer) : List (Nat × Nat) :=
  (List.range 32).flatMap fun py => ((List.range 64).filter fun px => pixel f px py).map fun px => (px, py)

/-! ### Well-formedness: the one check refuses a row count above 15 (R73) -/

theorem test_wellFormed_refuses_16_rows : (Instr.drw 0 0 16).wellFormed = false := by decide

theorem test_wellFormed_takes_15_rows : (Instr.drw 0 0 15).wellFormed = true := by decide

/-! ### Decoding: a word of each constructor, written out from the patterns of 30_encoding R78 -/

theorem test_decode_control :
    decodeWord 0b0000000011100000 = .ok .cls ∧
    decodeWord 0b0000000011101110 = .ok .ret ∧
    decodeWord 0b0001101010111100 = .ok (.jp 0xABC) ∧
    decodeWord 0b0010101010111100 = .ok (.call 0xABC) ∧
    decodeWord 0b1011001100000000 = .ok (.jpV0 0x300) := by decide

theorem test_decode_skips :
    decodeWord 0b0011101001000010 = .ok (.seImm 0xA 0x42) ∧
    decodeWord 0b0100101001000010 = .ok (.sneImm 0xA 0x42) ∧
    decodeWord 0b0101000100101111 = .ok (.seReg 1 2) ∧
    decodeWord 0b1001101010110111 = .ok (.sneReg 0xA 0xB) := by decide

theorem test_decode_immediates :
    decodeWord 0b0110001101000001 = .ok (.ldImm 3 0x41) ∧
    decodeWord 0b0111001100000001 = .ok (.addImm 3 0x01) ∧
    decodeWord 0b1100000100001111 = .ok (.rnd 1 0x0F) := by decide

theorem test_decode_alu :
    decodeWord 0b1000000100100000 = .ok (.ldReg 1 2) ∧
    decodeWord 0b1000000100100001 = .ok (.orReg 1 2) ∧
    decodeWord 0b1000000100100010 = .ok (.andReg 1 2) ∧
    decodeWord 0b1000000100100011 = .ok (.xorReg 1 2) ∧
    decodeWord 0b1000000100100100 = .ok (.addReg 1 2) ∧
    decodeWord 0b1000000100100101 = .ok (.subReg 1 2) ∧
    decodeWord 0b1000000111110110 = .ok (.shr 1) ∧
    decodeWord 0b1000101010110111 = .ok (.subnReg 0xA 0xB) ∧
    decodeWord 0b1000101010111110 = .ok (.shl 0xA) := by decide

theorem test_decode_index :
    decodeWord 0b1010001100000000 = .ok (.ldI 0x300) ∧
    decodeWord 0b1111000000011110 = .ok (.addI 0) ∧
    decodeWord 0b1111000000101001 = .ok (.ldFont 0) ∧
    decodeWord 0b1111000000110011 = .ok (.ldBcd 0) ∧
    decodeWord 0b1111001001010101 = .ok (.dump 2) ∧
    decodeWord 0b1111000101100101 = .ok (.load 1) := by decide

theorem test_decode_display_keys_timers :
    decodeWord 0b1101001101000101 = .ok (.drw 3 4 5) ∧
    decodeWord 0b1110000110011110 = .ok (.skp 1) ∧
    decodeWord 0b1110000110100001 = .ok (.sknp 1) ∧
    decodeWord 0b1111001000000111 = .ok (.ldVxDt 2) ∧
    decodeWord 0b1111111100001010 = .ok (.ldVxKey 0xF) ∧
    decodeWord 0b1111000100010101 = .ok (.ldDtVx 1) ∧
    decodeWord 0b1111001000011000 = .ok (.ldStVx 2) := by decide

/-- The decode errors of V-E. -/
theorem test_decode_rejects :
    [0x0000, 0x00E1, 0x0123, 0x8AB8, 0x8ABF, 0xE10E, 0xF175, 0xF100].all
      (fun w : Word => decodeWord w == .error (.noHandler (fieldP w) (fieldKk w))) = true := by decide

theorem test_decode_truncated : decode [0x63] = .error .truncated := by decide

theorem test_encode_bytes : encode (.ldImm 3 0x41) = [0x63, 0x41] := by decide

theorem test_decodeTableWord : decodeTableWord 16 0xD345 = some (.drw 3 4 5) ∧ decodeTableWord 16 0x0000 = none := by decide

/-! ### One instruction each, on the vectors of 95_test_vectors -/

/-- VC1. -/
theorem test_jp :
    after (boot [0x1A, 0xBC] quiet) (fun t => t.pc) = some 0x0ABC := by decide +kernel

/-- VC3. -/
theorem test_jp_odd_target_fetches_odd :
    faultOf { boot [0x12, 0x01] quiet with pc := 0x0201 } = some (.decodeError 0x0201 0x0100) := by decide +kernel

/-- VC5. -/
theorem test_call_last_free_entry :
    after { boot [0x2A, 0xBC] quiet with sp := 63 } (fun t => (t.stack[63], t.sp, t.pc)) = some (0x0202, 64, 0x0ABC) := by decide +kernel

/-- VC6. -/
theorem test_call_overflow :
    faultOf { boot [0x2A, 0xBC] quiet with sp := 64 } = some (.stackOverflow 0x0202) := by decide +kernel

/-- VC9. -/
theorem test_ret :
    after { boot [0x00, 0xEE] quiet with sp := 2, stack := State.reset.stack.set 1 0x1001 } (fun t => (t.sp, t.pc)) = some (1, 0x1001) := by decide +kernel

/-- VC8. -/
theorem test_ret_underflow :
    faultOf (boot [0x00, 0xEE] quiet) = some (.stackUnderflow 0x0202) := by decide +kernel

/-- VC10. -/
theorem test_seImm_taken :
    after (withRegs (boot [0x3A, 0x42] quiet) [(0xA, 0x42)]) (fun t => t.pc) = some 0x0204 := by decide +kernel

/-- VC11. -/
theorem test_seImm_not_taken :
    after (withRegs (boot [0x3A, 0x42] quiet) [(0xA, 0x43)]) (fun t => t.pc) = some 0x0202 := by decide +kernel

/-- VC12. -/
theorem test_sneImm_not_taken :
    after (withRegs (boot [0x4A, 0x42] quiet) [(0xA, 0x42)]) (fun t => t.pc) = some 0x0202 := by decide +kernel

/-- VC13. -/
theorem test_sneImm_taken :
    after (withRegs (boot [0x4A, 0x42] quiet) [(0xA, 0x43)]) (fun t => t.pc) = some 0x0204 := by decide +kernel

/-- VC14. -/
theorem test_seReg_taken :
    after (withRegs (boot [0x5A, 0xB0] quiet) [(0xA, 9), (0xB, 9)]) (fun t => t.pc) = some 0x0204 := by decide +kernel

/-- VC15. -/
theorem test_seReg_not_taken :
    after (withRegs (boot [0x5A, 0xB0] quiet) [(0xA, 9), (0xB, 8)]) (fun t => t.pc) = some 0x0202 := by decide +kernel

/-- VC17. -/
theorem test_sneReg_taken :
    after (withRegs (boot [0x9A, 0xB0] quiet) [(0xA, 9), (0xB, 8)]) (fun t => t.pc) = some 0x0204 := by decide +kernel

/-- VC18. -/
theorem test_sneReg_not_taken :
    after (withRegs (boot [0x9A, 0xB0] quiet) [(0xA, 9), (0xB, 9)]) (fun t => t.pc) = some 0x0202 := by decide +kernel

/-- VC21. -/
theorem test_jpV0_not_reduced :
    after (withRegs (boot [0xBF, 0xFF] quiet) [(0, 0xFF)]) (fun t => t.pc) = some 0x10FE := by decide +kernel

/-- VC22. -/
theorem test_jpV0_selects_no_register :
    after (withRegs (boot [0xB3, 0x00] quiet) [(3, 0x55)]) (fun t => t.pc) = some 0x0300 := by decide +kernel

/-- VA2. -/
theorem test_ldImm :
    after (boot [0x6F, 0xFF] quiet) (fun t => t.reg 15) = some 0xFF := by decide +kernel

/-- VA4. -/
theorem test_addImm_wraps_without_flag :
    after (withRegs (boot [0x73, 0x01] quiet) [(3, 0xFF)]) (fun t => (t.reg 3, t.reg 15)) = some (0x00, 0x00) := by decide +kernel

/-- VA7. -/
theorem test_ldReg :
    after (withRegs (boot [0x81, 0x20] quiet) [(2, 0x7E)]) (fun t => t.reg 1) = some 0x7E := by decide +kernel

/-- VA8. -/
theorem test_or_leaves_vf :
    after (withRegs (boot [0x81, 0x21] quiet) [(1, 0xF0), (2, 0x0F), (15, 1)]) (fun t => (t.reg 1, t.reg 15)) = some (0xFF, 1) := by decide +kernel

/-- VA9. -/
theorem test_and :
    after (withRegs (boot [0x81, 0x22] quiet) [(1, 0xF3), (2, 0x3C)]) (fun t => t.reg 1) = some 0x30 := by decide +kernel

/-- VA10. -/
theorem test_xor :
    after (withRegs (boot [0x81, 0x23] quiet) [(1, 0xFF), (2, 0x0F)]) (fun t => t.reg 1) = some 0xF0 := by decide +kernel

/-- VA14. -/
theorem test_add_sum_256 :
    after (withRegs (boot [0x81, 0x24] quiet) [(1, 0xFF), (2, 0x01)]) (fun t => (t.reg 1, t.reg 15)) = some (0x00, 1) := by decide +kernel

/-- VA17. -/
theorem test_add_to_vf_leaves_the_carry :
    after (withRegs (boot [0x8F, 0x14] quiet) [(15, 0xF0), (1, 0x20)]) (fun t => t.reg 15) = some 0x01 := by decide +kernel

/-- VA20. -/
theorem test_sub_equal_gives_flag_0 :
    after (withRegs (boot [0x81, 0x25] quiet) [(1, 0x0F), (2, 0x0F)]) (fun t => (t.reg 1, t.reg 15)) = some (0x00, 0) := by decide +kernel

/-- VA23. -/
theorem test_sub_from_vf_leaves_the_result :
    after (withRegs (boot [0x8F, 0x15] quiet) [(15, 0x10), (1, 0x01)]) (fun t => t.reg 15) = some 0x0F := by decide +kernel

/-- VA26. -/
theorem test_shr_ignores_vy :
    after (withRegs (boot [0x81, 0x26] quiet) [(1, 0x80), (2, 0xFF)]) (fun t => (t.reg 1, t.reg 15)) = some (0x40, 0) := by decide +kernel

/-- VA29. -/
theorem test_shr_of_vf_leaves_the_result :
    after (withRegs (boot [0x8F, 0x16] quiet) [(15, 0x05)]) (fun t => t.reg 15) = some 0x02 := by decide +kernel

/-- VA30. -/
theorem test_subn :
    after (withRegs (boot [0x81, 0x27] quiet) [(1, 0x0F), (2, 0xFF)]) (fun t => (t.reg 1, t.reg 15)) = some (0xF0, 1) := by decide +kernel

/-- VA31. -/
theorem test_subn_borrow :
    after (withRegs (boot [0x81, 0x27] quiet) [(1, 0xFF), (2, 0x0F)]) (fun t => (t.reg 1, t.reg 15)) = some (0x10, 0) := by decide +kernel

/-- VA34. -/
theorem test_shl :
    after (withRegs (boot [0x81, 0x2E] quiet) [(1, 0xFF)]) (fun t => (t.reg 1, t.reg 15)) = some (0xFE, 1) := by decide +kernel

/-- VA35. -/
theorem test_shl_no_bit_out :
    after (withRegs (boot [0x81, 0x2E] quiet) [(1, 0x7F)]) (fun t => (t.reg 1, t.reg 15)) = some (0xFE, 0) := by decide +kernel

/-- VA38. -/
theorem test_rnd_masks :
    after (boot [0xC1, 0x0F] [.cycle 0 0xA7]) (fun t => t.reg 1) = some 0x07 := by decide +kernel

/-- VM1. -/
theorem test_ldI :
    after { boot [0xA3, 0x00] quiet with index := 0xFFFF } (fun t => t.index) = some 0x0300 := by decide +kernel

/-- VM4. -/
theorem test_addI_keeps_upper_bits :
    after (withRegs { boot [0xF0, 0x1E] quiet with index := 0x0FFF } [(0, 0x01)]) (fun t => (t.index, t.reg 15)) = some (0x1000, 0) := by decide +kernel

/-- VM5. -/
theorem test_addI_wraps_at_16_bits :
    after (withRegs { boot [0xF0, 0x1E] quiet with index := 0xFFFF } [(0, 0x02)]) (fun t => t.index) = some 0x0001 := by decide +kernel

/-- VM7. -/
theorem test_ldFont_digit :
    after (withRegs (boot [0xF0, 0x29] quiet) [(0, 0x0A)]) (fun t => t.index) = some 0x0082 := by decide +kernel

/-- VM10. -/
theorem test_ldFont_no_mask :
    after (withRegs (boot [0xF0, 0x29] quiet) [(0, 0xFF)]) (fun t => t.index) = some 0x054B := by decide +kernel

/-- VM11. -/
theorem test_ldBcd :
    after (withRegs { boot [0xF0, 0x33] quiet with index := 0x0300 } [(0, 254)]) (fun t => (t.readByte 0x300, t.readByte 0x301, t.readByte 0x302)) = some (2, 5, 4) := by decide +kernel

/-- VM13. -/
theorem test_ldBcd_wraps :
    after (withRegs { boot [0xF0, 0x33] quiet with index := 0x0FFE } [(0, 255)]) (fun t => (t.readByte 0xFFE, t.readByte 0xFFF, t.readByte 0x000)) = some (2, 5, 5) := by decide +kernel

/-- VM15. -/
theorem test_dump :
    after (withRegs { boot [0xF2, 0x55] quiet with index := 0x0300 } [(0, 0x11), (1, 0x22), (2, 0x33), (3, 0x44)]) (fun t => ([0x300, 0x301, 0x302, 0x303].map t.readByte, t.index)) = some ([0x11, 0x22, 0x33, 0], 0x0300) := by decide +kernel

/-- VM18. -/
theorem test_dump_modifies_code :
    after (withRegs { boot [0xF1, 0x55] quiet with index := 0x0202 } [(0, 0x12)]) (fun t => t.fetchWord) = some 0x1200 := by decide +kernel

/-- VM20. -/
theorem test_load_reads_the_font :
    after { boot [0xF1, 0x65] quiet with index := 0x0050 } (fun t => (t.reg 0, t.reg 1, t.reg 2)) = some (0xF0, 0x90, 0) := by decide +kernel

/-- VM21. -/
theorem test_load_wraps :
    after (({ boot [0xF1, 0x65] quiet with index := 0x0FFF } : State).writeByte 0xFFF 0x77) (fun t => (t.reg 0, t.reg 1)) = some (0x77, 0x00) := by decide +kernel

/-- VD10. -/
theorem test_cls :
    after (withRegs { boot [0x00, 0xE0] quiet with fb := setPixel blankScreen 3 3 true } [(15, 1)]) (fun t => (cellsOf t.fb, t.reg 15)) = some ([], 1) := by decide +kernel

/-- VD2, first draw. -/
theorem test_drw_wraps_each_pixel :
    after (withRegs (({ boot [0xD0, 0x11] quiet with index := 0x0300 } : State).writeByte 0x300 0xFF) [(0, 63)]) (fun t => (cellsOf t.fb, t.reg 15)) = some ([(0, 0), (1, 0), (2, 0), (3, 0), (4, 0), (5, 0), (6, 0), (63, 0)], 0) := by decide +kernel

/-- VD7. -/
theorem test_drw_collides :
    after (({ boot [0xD0, 0x11] quiet with index := 0x0300, fb := setPixel blankScreen 1 0 true } : State).writeByte 0x300 0xC0) (fun t => (cellsOf t.fb, t.reg 15)) = some ([(0, 0)], 1) := by decide +kernel

/-- VK1. -/
theorem test_skp_pressed :
    after (withRegs (boot [0xE1, 0x9E] [.cycle 0x0008 0]) [(1, 3)]) (fun t => t.pc) = some 0x0204 := by decide +kernel

/-- VK3. -/
theorem test_skp_no_such_key :
    after (withRegs (boot [0xE1, 0x9E] [.cycle 0x0008 0]) [(1, 0x13)]) (fun t => t.pc) = some 0x0202 := by decide +kernel

/-- VK4. -/
theorem test_sknp_pressed :
    after (withRegs (boot [0xE1, 0xA1] [.cycle 0x0008 0]) [(1, 3)]) (fun t => t.pc) = some 0x0202 := by decide +kernel

/-- VK6. -/
theorem test_sknp_no_such_key :
    after (withRegs (boot [0xE1, 0xA1] [.cycle 0xFFFF 0]) [(1, 0x13)]) (fun t => t.pc) = some 0x0204 := by decide +kernel

/-- VK7. -/
theorem test_wait_no_key :
    after (boot [0xF1, 0x0A] quiet) (fun t => (t.pc, t.reg 1)) = some (0x0200, 0) := by decide +kernel

/-- VK8. -/
theorem test_wait_lowest_key :
    after (boot [0xF1, 0x0A] [.cycle 0x0088 0]) (fun t => (t.pc, t.reg 1)) = some (0x0202, 0x03) := by decide +kernel

/-- VK13. -/
theorem test_ldVxDt :
    after { boot [0xF2, 0x07] quiet with dt := 2 } (fun t => (t.reg 2, t.dt)) = some (2, 2) := by decide +kernel

/-- VK11. -/
theorem test_ldDtVx :
    after (withRegs (boot [0xF1, 0x15] quiet) [(1, 3)]) (fun t => t.dt) = some 3 := by decide +kernel

/-- VK12. -/
theorem test_ldStVx :
    after (withRegs (boot [0xF2, 0x18] quiet) [(2, 0x3C)]) (fun t => t.st) = some 0x3C := by decide +kernel

/-! ### Events -/

/-- VK14. -/
theorem test_tick :
    after { boot [] [.tick] with dt := 2, st := 1 } (fun t => (t.dt, t.st)) = some (1, 0) := by decide +kernel

/-- VK15. -/
theorem test_tick_at_zero :
    after (boot [] [.tick]) (fun t => (t.dt, t.st)) = some (0, 0) := by decide +kernel

/-- VZ4. -/
theorem test_reset_places_font_and_image :
    after (boot [] [.reset [0x63, 0x41]]) (fun t => [0x04F, 0x050, 0x09F, 0x0A0, 0x200, 0x201, 0x202].map t.readByte) = some [0, 0xF0, 0x80, 0, 0x63, 0x41, 0] := by decide +kernel

/-- VZ6. -/
theorem test_fetch_wraps :
    after ((({ boot [] quiet with pc := 0x0FFF } : State).writeByte 0xFFF 0x12).writeByte 0x000 0x34) (fun t => t.pc) = some 0x0234 := by decide +kernel

/-- the host's placing of a word: 6341 (R140). -/
theorem test_placed_word_runs_from_reset :
    after ((State.reset.withFetchWord 16 0x6341)) (fun t => (t.reg 3, t.pc)) = some (0x41, 0x0202) := by decide +kernel

/-- VZ5. -/
theorem test_decode_fault :
    faultOf (boot [0x80, 0x08] quiet) = some (.decodeError 0x0200 0x8008) := by decide +kernel

/-! ### Witnesses: for each obligation with hypotheses, a state and operands that meet all of them, and for its clauses
the values at their ends -/

theorem witness_DecodeInvertsEncode : (Instr.drw 0xF 0xF 15).wellFormed = true := by decide

theorem witness_DecodedWordsEncodeBack : decodeWord 0xDFFF = .ok (.drw 0xF 0xF 15) := by decide

/-- `PC` at the last byte of memory, the word's second byte at address 0. -/
theorem witness_StepRunsTheDecodedInstruction :
    let s := ((({ boot [] quiet with pc := 0x0FFF } : State).writeByte 0xFFF 0x12).writeByte 0x000 0x34)
    s.status = .running ∧ s.pending = .cycle 0 0 :: [] ∧
      decode [s.mem.read (s.pc.toNat % 4096), s.mem.read ((s.pc.toNat + 1) % 4096)] = .ok (.jp 0x234, []) := by
  decide +kernel

theorem witness_UnscriptedStepRunsTheDecodedInstruction :
    let s := boot [0x63, 0x41] []
    s.status = .running ∧ s.pending = [] ∧
      decode [s.mem.read (s.pc.toNat % 4096), s.mem.read ((s.pc.toNat + 1) % 4096)] = .ok (.ldImm 3 0x41, []) := by
  decide +kernel

theorem witness_IllegalWordRaisesDecodeError :
    State.reset.status = .running ∧ State.reset.pending = [] ∧
      decode [State.reset.mem.read (State.reset.pc.toNat % 4096), State.reset.mem.read ((State.reset.pc.toNat + 1) % 4096)] =
        .error (.noHandler 0 0) := by
  decide +kernel

theorem witness_IllegalWordRaisesDecodeError_scripted :
    let s := boot [0x80, 0x08] quiet
    s.status = .running ∧ s.pending = .cycle 0 0 :: [] ∧
      decode [s.mem.read (s.pc.toNat % 4096), s.mem.read ((s.pc.toNat + 1) % 4096)] = .error (.noHandler 8 8) := by
  decide +kernel

/-- Each clause: nothing pending, a cycle, a tick, and a Reset of an image of exactly 3584 bytes. -/
theorem witness_FaultedMachineOnlyResets :
    let f := Fault.stackUnderflow 0x0202
    let s : State := { State.reset with status := .faulted f }
    s.status = .faulted f ∧ s.pending = [] ∧
      ({ s with pending := quiet } : State).pending = .cycle 0 0 :: [] ∧
      ({ s with pending := [.tick] } : State).pending = .tick :: [] ∧
      ({ s with pending := [.reset (List.replicate 3584 0x12)] } : State).pending = .reset (List.replicate 3584 0x12) :: [] ∧
      (List.replicate 3584 (0x12 : Byte)).length ≤ 3584 :=
  ⟨rfl, rfl, rfl, rfl, rfl, by rw [List.length_replicate]⟩

theorem witness_PlacedWordIsFetched : Memory.wf (boot [0x63, 0x41] []).mem ∧ ea 0x300 ≠ ea 0x200 ∧ ea 0x300 ≠ ea 0x201 := by
  decide +kernel

theorem witness_StepKeepsMemoryCanonical :
    (boot [0xF0, 0x55] quiet).Inv ∧ (after (boot [0xF0, 0x55] quiet) (fun t => t.pc)).isSome = true := by decide +kernel

/-- The longest image that fits. -/
theorem witness_ResetMemoryIsCanonical : (List.replicate 3584 (0x12 : Byte)).length ≤ 3584 := by
  rw [List.length_replicate]

theorem witness_NextStatesAreRunning : (after (boot [] [.tick]) (fun t => t.dt)).isSome = true := by decide +kernel

/-- The four ways a step of a running machine stops. -/
theorem witness_StepStopsOnlyByTheFourFaults :
    State.reset.status = .running ∧ faultOf State.reset = some (.decodeError 0x0200 0x0000) ∧
      faultOf (boot [0x00, 0xEE] quiet) = some (.stackUnderflow 0x0202) ∧
      faultOf { boot [0x22, 0x00] quiet with sp := 64 } = some (.stackOverflow 0x0202) := by decide +kernel

theorem faultOf_long_reset {image : List Byte} (h : Config.maxImage < image.length) :
    faultOf (boot [] [.reset image]) = some (.loadOverflow image.length) := by
  have hs : step (boot [] [.reset image]) = .fault (.loadOverflow image.length) := resetEvent_overflow h (boot [] [])
  rw [faultOf, hs]

theorem witness_StepStopsOnlyByTheFourFaults_load :
    (boot [] [.reset (List.replicate 3585 0x12)]).status = .running ∧
      faultOf (boot [] [.reset (List.replicate 3585 0x12)]) = some (.loadOverflow 3585) := by
  refine ⟨rfl, ?_⟩
  rw [faultOf_long_reset (by rw [List.length_replicate]; decide), List.length_replicate]

/-- A form that stores at the top of memory: three stored addresses, and others. -/
theorem witness_InstructionsWriteOnlyTheirColumns :
    let s : State := { State.reset with index := 0x0FFE }
    Memory.wf s.mem ∧ (∃ t, exec (.ldBcd 0) s = .next t) ∧ (∀ k < storedBytes (.ldBcd 0), ea 1 ≠ ea (s.index.toNat + k)) ∧
      writesReg 15 (.ldBcd 0) = false ∧ writesIndex (.ldBcd 0) = false ∧ usesStack (.ldBcd 0) = false ∧
      writesScreen (.ldBcd 0) = false :=
  ⟨by decide, ⟨_, rfl⟩, by decide, by decide, by decide, by decide, by decide⟩

/-- RET with one entry, whose other stack entries are below and above. -/
theorem witness_InstructionsWriteOnlyTheirColumns_ret :
    let s : State := { State.reset with sp := 64 }
    Memory.wf s.mem ∧ (∃ t, exec .ret s = .next t) ∧ (63 : Nat) ≠ s.sp.val := ⟨by decide, ⟨_, rfl⟩, by decide⟩

theorem witness_InstructionsReadOnlyTheirColumns :
    (∀ x kk, Instr.cls ≠ .rnd x kk) ∧ (∀ x, Instr.cls ≠ .skp x ∧ Instr.cls ≠ .sknp x ∧ Instr.cls ≠ .ldVxKey x) ∧
      (∀ x, Instr.cls ≠ .ldVxDt x ∧ Instr.cls ≠ .ldDtVx x) ∧ (∀ x, Instr.cls ≠ .ldStVx x) ∧
      writesScreen (.rnd 0 0) = false := by
  refine ⟨?_, ?_, ?_, ?_, rfl⟩ <;> intros <;> simp

theorem witness_PcAfterEveryInstruction : ∃ t, exec (.ldVxKey 1) { State.reset with pc := 0x0202 } = .next t := ⟨_, rfl⟩

theorem witness_CallPushesTheReturnAddress :
    ({ State.reset with sp := 63 } : State).sp.val ≠ 64 ∧ ({ State.reset with sp := 64 } : State).sp.val = 64 := by decide

theorem witness_RetGoesToTheLastPushed :
    ({ State.reset with sp := 64 } : State).sp.val ≠ 0 ∧ 63 + 1 = ({ State.reset with sp := 64 } : State).sp.val ∧
      State.reset.sp.val = 0 := by decide

theorem witness_NestedCallsReturn : State.reset.sp.val + (List.replicate 64 (0x200 : BitVec 12)).length ≤ 64 := by decide

theorem witness_LoadImmediate : (0x6FFF : Word) &&& 0xF000 = 0x6000 := by decide

theorem witness_AddImmediate :
    (0x7FFF : Word) &&& 0xF000 = 0x7000 ∧ (withRegs State.reset [(3, 0x41)]).reg 3 = 0x41 ∧
      (withRegs State.reset [(0, 0x05)]).reg 0 = 0x05 ∧ State.reset.reg 0 = 0x00 := by decide

theorem witness_CopyAndBitwise : (0 : RegNum) ≠ 15 := by decide

theorem witness_AddSetsTheCarry : (0 : RegNum) ≠ 15 ∧ (1 : RegNum) ≠ 0 ∧ (1 : RegNum) ≠ 15 := by decide

theorem witness_SubtractsSetTheFlag : (0 : RegNum) ≠ 15 ∧ (14 : RegNum) ≠ 0 ∧ (14 : RegNum) ≠ 15 := by decide

theorem witness_ShiftsSetTheFlag : (14 : RegNum) ≠ 15 ∧ (0 : RegNum) ≠ 14 ∧ (0 : RegNum) ≠ 15 := by decide

theorem witness_RandomMasksTheDraw : (15 : RegNum) ≠ 0 := by decide

theorem witness_BcdStoresTheDigits :
    Memory.wf ({ State.reset with index := 0x0FFE } : State).mem ∧
      ∀ k < 3, ea 0x001 ≠ ea (({ State.reset with index := 0x0FFE } : State).index.toNat + k) := by decide

theorem witness_DumpStoresTheRegisters :
    Memory.wf ({ State.reset with index := 0x0FF8 } : State).mem ∧ (15 : RegNum) ≤ 15 ∧
      ∀ k : RegNum, k ≤ 15 → ea 0x008 ≠ ea (({ State.reset with index := 0x0FF8 } : State).index.toNat + k.val) := by decide

theorem witness_DumpThenLoadRoundTrip :
    Memory.wf State.reset.mem ∧ (∃ t, exec (.dump 15) State.reset = .next t) ∧ (15 : RegNum) ≤ 15 :=
  ⟨by decide, ⟨_, rfl⟩, by decide⟩

theorem witness_MemoryReadsTheLastWrite : Memory.wf (boot [0x12] []).mem := by decide +kernel

/-- The word made of V0 and V1, fetched at the address they were stored to. -/
theorem witness_FetchSeesTheStore :
    let s : State := { State.reset with index := 0x0FFF }
    Memory.wf s.mem ∧ (∃ t, exec (.dump 1) s = .next t) ∧ (1 : RegNum) ≤ 1 ∧ (1 : RegNum).val = (0 : RegNum).val + 1 ∧
      (0x0FFF : Word).toNat % 4096 = (s.index.toNat + (0 : RegNum).val) % 4096 :=
  ⟨by decide, ⟨_, rfl⟩, by decide, by decide, by decide⟩

theorem witness_DrawXorsTheSprite : (0 : Nat) < 16 ∧ (15 : Nat) < 16 ∧ (63 : Nat) < 64 ∧ (31 : Nat) < 32 := by decide

theorem witness_DrawTwiceRestores : (15 : Nat) < 16 ∧ ∃ t, exec (.drw 0 1 15) State.reset = .next t := ⟨by decide, ⟨_, rfl⟩⟩

theorem witness_WaitForKey : State.reset.keys = 0 ∧ ({ State.reset with keys := 0x8000 } : State).keys ≠ 0 := by decide

theorem witness_TicksCountDownBothTimers :
    (boot [] [.tick, .tick]).status = .running ∧ (boot [] [.tick, .tick]).pending = List.replicate 2 .tick ++ [] ∧
      ({ State.reset with status := .faulted (.loadOverflow 3585), pending := [.tick] } : State).status ≠ .running :=
  ⟨rfl, rfl, by decide⟩

theorem witness_ResetStartsASession :
    (boot [] [.reset (List.replicate 3584 0x12)]).pending = .reset (List.replicate 3584 0x12) :: [] ∧
      (List.replicate 3584 (0x12 : Byte)).length ≤ 3584 ∧ 3584 < (List.replicate 3585 (0x12 : Byte)).length :=
  ⟨rfl, by rw [List.length_replicate], by rw [List.length_replicate]; decide⟩

/-- F029 in memory at 0x200, with the last digit in V0. -/
theorem witness_FontAddressesHoldTheGlyphs :
    (∀ k < 80, (withRegs (boot [0xF0, 0x29] quiet) [(0, 0x0F)]).readByte (0x050 + k) = font.getD k 0) ∧
      ((withRegs (boot [0xF0, 0x29] quiet) [(0, 0x0F)]).reg 0).toNat < 16 := by decide +kernel

/-- 1200 at 0x200 (VC2). -/
theorem witness_SelfJumpStaysPut :
    (boot [0x12, 0x00] quiet).selfJump ∧ (boot [0x12, 0x00] quiet).status = .running ∧
      (boot [0x12, 0x00] quiet).pending = .cycle 0 0 :: [] := ⟨⟨0x200, by decide +kernel, by decide +kernel⟩, rfl, rfl⟩

end Sys2Proof.Tests
end

section
/-! The faults of the stack, and that no other instruction stops (00_scope R16; 60_exceptions R220, R223, R226). -/

namespace Sys2Proof.Machine

/-! ### The stack operations, one equation per case (41_control_flow R120, R122) -/

theorem pushAndJump_of_full {s : State} (target : Word) (h : s.sp.val = 64) :
    pushAndJump target s = .fault (.stackOverflow s.pc) := dif_pos h

theorem pushAndJump_of_room {s : State} (target : Word) (h : s.sp.val < 64) :
    pushAndJump target s = .next { s with
      stack := s.stack.set s.sp.val s.pc h
      sp := ⟨s.sp.val + 1, Nat.succ_lt_succ h⟩
      pc := target } := dif_neg h.ne

theorem popToPc_of_empty {s : State} (h : s.sp.val = 0) : popToPc s = .fault (.stackUnderflow s.pc) := dif_pos h

theorem popToPc_of_nonempty {s : State} (h : s.sp.val ≠ 0) :
    popToPc s = .next { s with
      sp := ⟨s.sp.val - 1, by omega⟩
      pc := s.stack[s.sp.val - 1]'(by omega) } := dif_neg h

/-! ### What an instruction answers -/

theorem exec_call (nnn : BitVec 12) (s : State) : exec (.call nnn) s = pushAndJump (zextAddr nnn) s := rfl

theorem exec_ret (s : State) : exec .ret s = popToPc s := rfl

/-- Only CALL and RET have a failure branch; every other arm of `exec` answers a next state outright. -/
theorem exec_next_of_usesStack_false {i : Instr} (h : usesStack i = false) (s : State) : ∃ t, exec i s = .next t := by
  cases i
  case call | ret => cases h
  all_goals exact ⟨_, rfl⟩

/-- Every way an instruction can end: it completes with the stack unused or usable, or it is CALL on a full stack or RET
on an empty one. -/
theorem exec_cases (i : Instr) (s : State) :
    (∃ t, exec i s = .next t ∧ ¬ ((∃ nnn, i = .call nnn) ∧ s.sp.val = 64) ∧ ¬ (i = .ret ∧ s.sp.val = 0)) ∨
    (∃ nnn, i = .call nnn ∧ s.sp.val = 64 ∧ exec i s = .fault (.stackOverflow s.pc)) ∨
    (i = .ret ∧ s.sp.val = 0 ∧ exec i s = .fault (.stackUnderflow s.pc)) := by
  cases hu : usesStack i
  case false =>
    obtain ⟨t, ht⟩ := exec_next_of_usesStack_false hu s
    refine .inl ⟨t, ht, ?_, ?_⟩
    · rintro ⟨⟨_, rfl⟩, -⟩; cases hu
    · rintro ⟨rfl, -⟩; cases hu
  case true =>
    cases i
    case call nnn =>
      rw [exec_call]
      by_cases hsp : s.sp.val = 64
      · exact .inr (.inl ⟨nnn, rfl, hsp, pushAndJump_of_full _ hsp⟩)
      · exact .inl ⟨_, pushAndJump_of_room _ (by omega), fun h => hsp h.2, by simp⟩
    case ret =>
      rw [exec_ret]
      by_cases hsp : s.sp.val = 0
      · exact .inr (.inr ⟨rfl, hsp, popToPc_of_empty hsp⟩)
      · exact .inl ⟨_, popToPc_of_nonempty hsp, by simp, fun h => hsp h.2⟩
    all_goals cases hu

/-- Settles O19: each of the three ways an instruction can end decides both sides of the claim. -/
theorem onlyTheStackFaults : Obligations.OnlyTheStackFaults := by
  intro i s
  obtain ⟨t, ht, hcall, hret⟩ | ⟨nnn, rfl, hsp, hf⟩ | ⟨rfl, hsp, hf⟩ := exec_cases i s
  · refine ⟨by simp [ht], fun f => ?_⟩
    simp only [ht, reduceCtorEq, false_iff]
    rintro (⟨hi, hsp, -⟩ | ⟨hi, hsp, -⟩)
    · exact hcall ⟨hi, hsp⟩
    · exact hret ⟨hi, hsp⟩
  · simp [hf, hsp, eq_comm]
  · simp [hf, hsp, eq_comm]

end Sys2Proof.Machine
end

section
/-! What an instruction that completes can do, said once: the columns of 10_state R41. -/

namespace Sys2Proof.Machine

/-! ### The two runs, as updates of one field -/

/-- A run of bytes written is an update of the memory alone. -/
theorem State.writeBytes_eq (s : State) (a : Nat) (bs : List Byte) :
    s.writeBytes a bs = { s with mem := (s.writeBytes a bs).mem } := by
  obtain ⟨m, hm⟩ := s.writeBytes_frame a bs
  rw [hm]

/-- A run of register loads is an update of the register file alone. -/
theorem State.loadRegs_eq (s : State) (ks : List RegNum) : s.loadRegs ks = { s with v := (s.loadRegs ks).v } := by
  obtain ⟨v, hv⟩ := s.loadRegs_frame ks
  rw [hv]

@[simp] theorem State.writeBytes_pc (s : State) (a : Nat) (bs : List Byte) : (s.writeBytes a bs).pc = s.pc := by
  rw [State.writeBytes_eq]

@[simp] theorem State.loadRegs_pc (s : State) (ks : List RegNum) : (s.loadRegs ks).pc = s.pc := by
  rw [State.loadRegs_eq]

/-! ### The stack operations that complete (41_control_flow R120, R122) -/

theorem pushAndJump_next {target : Word} {s t : State} (h : pushAndJump target s = .next t) :
    ∃ hroom : s.sp.val < 64, t = { s with
      stack := s.stack.set s.sp.val s.pc hroom
      sp := ⟨s.sp.val + 1, Nat.succ_lt_succ hroom⟩
      pc := target } := by
  have hle := s.sp.isLt
  by_cases hsp : s.sp.val = 64
  · rw [pushAndJump_of_full _ hsp] at h
    cases h
  · have hroom : s.sp.val < 64 := by omega
    rw [pushAndJump_of_room _ hroom] at h
    cases h
    exact ⟨hroom, rfl⟩

theorem popToPc_next {s t : State} (h : popToPc s = .next t) :
    s.sp.val ≠ 0 ∧ t = { s with
      sp := ⟨s.sp.val - 1, by omega⟩
      pc := s.stack[s.sp.val - 1]'(by omega) } := by
  by_cases hsp : s.sp.val = 0
  · rw [popToPc_of_empty hsp] at h
    cases h
  · rw [popToPc_of_nonempty hsp] at h
    cases h
    exact ⟨hsp, rfl⟩

/-! ### The effects -/

/-- The changes of state that R41 allows an instruction, one constructor for each set of columns written together. -/
inductive Effect (i : Instr) (s : State) : State → Prop
  /-- registers of the columns V[x] and VF -/
  | regs (v : Vector Byte 16) (hv : ∀ r : RegNum, writesReg r i = false → v[r] = s.v[r]) : Effect i s { s with v := v }
  /-- a jump, a skip or a wait -/
  | goto (w : Word) : Effect i s { s with pc := w }
  /-- LD I, ADD I, LD F -/
  | setIndex (w : Word) (hi : writesIndex i = true) : Effect i s { s with index := w }
  /-- LD DT -/
  | setDt (x : RegNum) (b : Byte) (hi : i = .ldDtVx x) : Effect i s { s with dt := b }
  /-- LD ST -/
  | setSt (x : RegNum) (b : Byte) (hi : i = .ldStVx x) : Effect i s { s with st := b }
  /-- CLS and DRW -/
  | screen (f : Framebuffer) (v : Vector Byte 16) (hi : writesScreen i = true)
      (hv : ∀ r : RegNum, writesReg r i = false → v[r] = s.v[r]) : Effect i s { s with fb := f, v := v }
  /-- LD B and LD [I], Vx -/
  | store (bs : List Byte) (hlen : bs.length = storedBytes i) :
      Effect i s { s with mem := (s.writeBytes s.index.toNat bs).mem }
  /-- CALL -/
  | push (nnn : BitVec 12) (hi : i = .call nnn) (hroom : s.sp.val < 64) :
      Effect i s { s with
        stack := s.stack.set s.sp.val s.pc hroom
        sp := ⟨s.sp.val + 1, Nat.succ_lt_succ hroom⟩
        pc := zextAddr nnn }
  /-- RET -/
  | pop (p : Fin 65) (w : Word) (hi : i = .ret) : Effect i s { s with sp := p, pc := w }

/-- A register of the instruction's row set. -/
theorem Effect.setReg {i : Instr} {s : State} {x : RegNum} (hx : writesReg x i = true) (b : Byte) :
    Effect i s (s.setReg x b) := by
  refine .regs _ fun r hr => ?_
  have hne : r ≠ x := by rintro rfl; simp [hx] at hr
  exact (s.setReg_reg x r b).trans (if_neg hne)

/-- Two registers of the instruction's row set, one after the other: a result and a flag. -/
theorem Effect.setReg_setReg {i : Instr} {s : State} {x y : RegNum} (hx : writesReg x i = true)
    (hy : writesReg y i = true) (b c : Byte) : Effect i s ((s.setReg x b).setReg y c) := by
  refine .regs _ fun r hr => ?_
  have hnx : r ≠ x := by rintro rfl; simp [hx] at hr
  have hny : r ≠ y := by rintro rfl; simp [hy] at hr
  exact ((s.setReg x b).setReg_reg y r c).trans ((if_neg hny).trans ((s.setReg_reg x r b).trans (if_neg hnx)))

/-- The registers that a load does not name stay. -/
theorem Effect.loadRegs (x : RegNum) (s : State) : Effect (.load x) s (s.loadRegs (regsUpTo x)) := by
  rw [State.loadRegs_eq]
  refine .regs _ fun r hr => ?_
  have hnot : r ∉ regsUpTo x := by simpa [writesReg, mem_regsUpTo] using hr
  exact (s.loadRegs_reg (regsUpTo x) r).trans (if_neg hnot)

/-- As many bytes stored from `I` up as the instruction stores. -/
theorem Effect.writeBytes {i : Instr} {bs : List Byte} (hlen : bs.length = storedBytes i) (s : State) :
    Effect i s (s.writeBytes (s.indexAddr 0) bs) := by
  rw [State.writeBytes_eq]
  exact .store bs hlen

theorem Effect.waitForKey (x : RegNum) (s : State) : Effect (.ldVxKey x) s (s.waitForKey x) := by
  unfold State.waitForKey
  split
  · exact .goto _
  · exact .setReg (by simp [writesReg]) _

theorem Effect.pushAndJump {nnn : BitVec 12} {s t : State} (h : pushAndJump (zextAddr nnn) s = .next t) :
    Effect (.call nnn) s t := by
  obtain ⟨hroom, rfl⟩ := pushAndJump_next h
  exact .push nnn rfl hroom

theorem Effect.popToPc {s t : State} (h : popToPc s = .next t) : Effect .ret s t := by
  obtain ⟨_, rfl⟩ := popToPc_next h
  exact .pop _ _ rfl

/-- Everything an instruction that completes can do (10_state R41). -/
theorem exec_effect {i : Instr} {s t : State} (h : exec i s = .next t) : Effect i s t := by
  cases i
  case call nnn => exact .pushAndJump h
  case ret => exact .popToPc h
  all_goals cases h
  case ldImm | addImm | ldReg | orReg | andReg | xorReg | rnd | ldVxDt => exact .setReg (by simp [writesReg]) _
  case addReg | subReg | subnReg | shr | shl =>
    exact .setReg_setReg (by simp [writesReg]) (by simp [writesReg]) _ _
  case load x => exact .loadRegs x s
  case ldVxKey x => exact .waitForKey x s
  case jp | jpV0 | seImm | sneImm | seReg | sneReg | skp | sknp => exact .goto _
  case ldI | addI | ldFont => exact .setIndex _ rfl
  case ldDtVx x => exact .setDt x _ rfl
  case ldStVx x => exact .setSt x _ rfl
  case cls => exact .screen blankScreen s.v rfl fun _ _ => rfl
  case drw =>
    refine .screen _ _ rfl fun r hr => ?_
    have hne : r ≠ Config.flagReg := by simpa [writesReg] using hr
    exact (State.setFlag_reg _ _ r).trans (if_neg hne)
  case ldBcd => exact .writeBytes rfl s
  case dump x => exact .writeBytes (by simp [storedBytes, regsUpTo_length]) s

/-! ### The frame, column by column -/

section
variable {i : Instr} {s t : State} (e : Effect i s t)
include e

theorem Effect.reg_eq {r : RegNum} (h : writesReg r i = false) : t.reg r = s.reg r := by
  cases e
  case regs v hv => exact hv r h
  case screen f v _ hv => exact hv r h
  all_goals rfl

theorem Effect.index_eq (h : writesIndex i = false) : t.index = s.index := by
  cases e
  case setIndex w hi => simp [h] at hi
  all_goals rfl

theorem Effect.stack_unused (h : usesStack i = false) : t.sp = s.sp ∧ t.stack = s.stack := by
  cases e
  case push nnn hi _ => subst hi; cases h
  case pop p w hi => subst hi; cases h
  all_goals exact ⟨rfl, rfl⟩

theorem Effect.stack_eq_of_ret (h : i = .ret) : t.stack = s.stack := by
  cases e
  case push nnn hi _ => simp [h] at hi
  all_goals rfl

theorem Effect.stack_get {k : Nat} (hk : k < 64) (h : k ≠ s.sp.val) : t.stack[k] = s.stack[k] := by
  cases e
  case push nnn _ hsp => exact Vector.getElem_set_ne hsp hk h.symm
  all_goals rfl

theorem Effect.dt_eq (h : ∀ x, i ≠ .ldDtVx x) : t.dt = s.dt := by
  cases e
  case setDt x b hi => exact absurd hi (h x)
  all_goals rfl

theorem Effect.st_eq (h : ∀ x, i ≠ .ldStVx x) : t.st = s.st := by
  cases e
  case setSt x b hi => exact absurd hi (h x)
  all_goals rfl

theorem Effect.fb_eq (h : writesScreen i = false) : t.fb = s.fb := by
  cases e
  case screen f v hi _ => simp [h] at hi
  all_goals rfl

theorem Effect.readByte_eq (hm : Memory.wf s.mem) {a : Nat}
    (h : ∀ k < storedBytes i, ea a ≠ ea (s.index.toNat + k)) : t.readByte a = s.readByte a := by
  cases e
  case store bs hlen => exact State.readByte_writeBytes_of_ne hm (hlen ▸ h)
  all_goals rfl

theorem Effect.status_eq : t.status = s.status := by cases e <;> rfl

/-- The inputs of the current cycle and the model's own fields. -/
theorem Effect.host_eq : t.keys = s.keys ∧ t.draw = s.draw ∧ t.pending = s.pending ∧ t.freeIdx = s.freeIdx := by
  cases e <;> exact ⟨rfl, rfl, rfl, rfl⟩

end

/-- Settles O21: the frame lemmas of `Effect`, one for each column. -/
theorem instructionsWriteOnlyTheirColumns : Obligations.InstructionsWriteOnlyTheirColumns := by
  intro i s t hm h
  have e := exec_effect h
  obtain ⟨hkeys, hdraw, hpending, hfree⟩ := e.host_eq
  exact ⟨fun _ => e.reg_eq, e.index_eq, e.stack_unused, e.stack_eq_of_ret, fun _ => e.stack_get, e.dt_eq, e.st_eq,
    e.fb_eq, fun _ => e.readByte_eq hm, hkeys, e.status_eq, hdraw, hpending, hfree⟩

/-- Settles O18: a step that answers a state is a Reset that fits, or an event of a running machine, and no event of a
running machine that completes writes STATUS. -/
theorem nextStatesAreRunning : Obligations.NextStatesAreRunning := by
  intro s t h
  obtain ⟨image, rest, -, hfits, rfl⟩ | ⟨keys, draw, rest, i, -, hrun, -, he⟩ | ⟨rest, -, hrun, rfl⟩ |
    ⟨i, u, -, hrun, -, he, rfl⟩ := step_next h
  · exact (State.ofImage_status image).trans (if_pos hfits)
  · exact (exec_effect he).status_eq.trans hrun
  · exact hrun
  · exact (exec_effect he).status_eq.trans hrun

end Sys2Proof.Machine
end

section
/-! Where an instruction leaves `PC` (10_state R24): `a + 2` is the `PC` the instruction sees, `a` its own address. -/

namespace Sys2Proof.Machine

/-- The two ways to name the instruction after the next one: `a + 4`, and 2 more than the `PC` the instruction sees. -/
theorem sub_two_add_four (pc : Word) : pc - 2#16 + 4#16 = pc + 2#16 := by bv_omega

theorem State.waitForKey_pc (s : State) (x : RegNum) :
    (s.waitForKey x).pc = if s.keys = 0 then s.pc - 2 else s.pc := by
  unfold State.waitForKey
  split
  case h_1 hnone => rw [if_pos (lowestKey_eq_none.1 hnone), State.setPc_pc]
  case h_2 k hsome =>
    have hne : s.keys ≠ 0 := fun h0 => by rw [lowestKey_eq_none.2 h0] at hsome; cases hsome
    rw [if_neg hne, State.setReg_pc]

theorem pushAndJump_pc {target : Word} {s t : State} (h : pushAndJump target s = .next t) : t.pc = target := by
  obtain ⟨_, rfl⟩ := pushAndJump_next h
  rfl

theorem popToPc_pc {s t : State} (h : popToPc s = .next t) : t.pc = s.stack.getD (s.sp.val - 1) 0 := by
  obtain ⟨_, rfl⟩ := popToPc_next h
  have hlt : s.sp.val - 1 < 64 := by omega
  simp [Vector.getD, hlt]

/-- Settles O23: the rows of R24 one by one; every instruction without a row of its own leaves `PC` alone. -/
theorem pcAfterEveryInstruction : Obligations.PcAfterEveryInstruction := by
  intro i s t h
  cases i
  case call => exact pushAndJump_pc h
  case ret => exact popToPc_pc h
  all_goals cases h
  case jp => rfl
  case jpV0 nnn => simp [pcAfter, zextAddr, BitVec.ofNat_add]
  case seImm | sneImm | seReg | sneReg | skp => simp [pcAfter, sub_two_add_four]
  case sknp x => cases hk : keyPressed s.keys (s.reg x) <;> simp [pcAfter, hk, sub_two_add_four]
  case ldVxKey => simp [State.waitForKey_pc, pcAfter]
  all_goals simp [pcAfter]

end Sys2Proof.Machine
end

section
/-! What an instruction looks at (10_state R41): a change made to a field that it neither reads nor writes can be made
before it or after it. -/

namespace Sys2Proof.Machine

/-- A change of the fields that only a few instructions of R41 read or write, field by field; a field not named stays. -/
structure SideChange where
  /-- the host's byte, which RND reads -/
  draw : Byte → Byte := id
  /-- KEYS, which SKP, SKNP and LD Vx, K read -/
  keys : KeySet → KeySet := id
  /-- `DT`, which LD Vx, DT reads and LD DT writes -/
  dt : Byte → Byte := id
  /-- `ST`, which LD ST writes -/
  st : Byte → Byte := id
  /-- the framebuffer, which DRW reads and CLS and DRW write -/
  fb : Framebuffer → Framebuffer := id
  /-- STATUS, which no instruction touches -/
  status : Status → Status := id

/-- The changed state. -/
def SideChange.apply (c : SideChange) (s : State) : State :=
  { s with draw := c.draw s.draw, keys := c.keys s.keys, dt := c.dt s.dt, st := c.st s.st, fb := c.fb s.fb,
           status := c.status s.status }

/-- Each field is either left alone by the change or neither read nor written by the instruction (10_state R41). -/
structure SideChange.Spares (c : SideChange) (i : Instr) : Prop where
  draw : c.draw = id ∨ ∀ x kk, i ≠ .rnd x kk
  keys : c.keys = id ∨ ∀ x, i ≠ .skp x ∧ i ≠ .sknp x ∧ i ≠ .ldVxKey x
  dt : c.dt = id ∨ ∀ x, i ≠ .ldVxDt x ∧ i ≠ .ldDtVx x
  st : c.st = id ∨ ∀ x, i ≠ .ldStVx x
  fb : c.fb = id ∨ writesScreen i = false

theorem SideChange.writeBytes_apply (c : SideChange) (s : State) (a : Nat) (bs : List Byte) :
    (c.apply s).writeBytes a bs = c.apply (s.writeBytes a bs) := by
  induction bs generalizing s a with
  | nil => rfl
  | cons b bs ih => exact ih (s.writeByte a b) (a + 1)

theorem SideChange.loadRegs_apply (c : SideChange) (s : State) (ks : List RegNum) :
    (c.apply s).loadRegs ks = c.apply (s.loadRegs ks) := by
  induction ks generalizing s with
  | nil => rfl
  | cons k ks ih => exact ih (s.setReg k (s.readByte (s.indexAddr k)))

theorem SideChange.waitForKey_apply {c : SideChange} (h : c.keys = id) (s : State) (x : RegNum) :
    (c.apply s).waitForKey x = c.apply (s.waitForKey x) := by
  have hkeys : (c.apply s).keys = s.keys := congrFun h s.keys
  unfold State.waitForKey
  rw [hkeys]
  cases lowestKey s.keys <;> rfl

theorem SideChange.pushAndJump_apply (c : SideChange) (target : Word) (s : State) :
    pushAndJump target (c.apply s) = onNext c.apply (pushAndJump target s) := by
  have hle := s.sp.isLt
  by_cases hsp : s.sp.val = 64
  · rw [pushAndJump_of_full target hsp, pushAndJump_of_full (s := c.apply s) target hsp]; rfl
  · have hlt : s.sp.val < 64 := by omega
    rw [pushAndJump_of_room target hlt, pushAndJump_of_room (s := c.apply s) target hlt]; rfl

theorem SideChange.popToPc_apply (c : SideChange) (s : State) :
    popToPc (c.apply s) = onNext c.apply (popToPc s) := by
  by_cases hsp : s.sp.val = 0
  · rw [popToPc_of_empty hsp, popToPc_of_empty (s := c.apply s) hsp]; rfl
  · rw [popToPc_of_nonempty hsp, popToPc_of_nonempty (s := c.apply s) hsp]; rfl

/-- An instruction and a change that spares its fields commute. -/
theorem exec_apply {c : SideChange} {i : Instr} (h : c.Spares i) (s : State) :
    exec i (c.apply s) = onNext c.apply (exec i s) := by
  obtain ⟨draw, keys, dt, st, fb, status⟩ := c
  cases i
  case call => exact SideChange.pushAndJump_apply _ _ s
  case ret => exact SideChange.popToPc_apply _ s
  case load => exact congrArg Host.Outcome.next (SideChange.loadRegs_apply _ s _)
  case ldBcd | dump => exact congrArg Host.Outcome.next (SideChange.writeBytes_apply _ s _ _)
  case ldVxKey =>
    exact congrArg Host.Outcome.next (SideChange.waitForKey_apply (h.keys.resolve_right fun hn => (hn _).2.2 rfl) s _)
  case rnd => cases h.draw.resolve_right fun hn => hn _ _ rfl; rfl
  case skp => cases h.keys.resolve_right fun hn => (hn _).1 rfl; rfl
  case sknp => cases h.keys.resolve_right fun hn => (hn _).2.1 rfl; rfl
  case ldVxDt => cases h.dt.resolve_right fun hn => (hn _).1 rfl; rfl
  case ldDtVx => cases h.dt.resolve_right fun hn => (hn _).2 rfl; rfl
  case ldStVx => cases h.st.resolve_right fun hn => hn _ rfl; rfl
  case cls | drw => cases h.fb.resolve_right Bool.noConfusion; rfl
  all_goals rfl

/-- Settles O22: each clause changes one field before an instruction that spares it; the three overwriting forms forget
the old value. -/
theorem instructionsReadOnlyTheirColumns : Obligations.InstructionsReadOnlyTheirColumns := fun _ s =>
  ⟨fun d hi => exec_apply (c := { draw := fun _ => d }) ⟨.inr hi, .inl rfl, .inl rfl, .inl rfl, .inl rfl⟩ s,
    fun k hi => exec_apply (c := { keys := fun _ => k }) ⟨.inl rfl, .inr hi, .inl rfl, .inl rfl, .inl rfl⟩ s,
    fun b hi => exec_apply (c := { dt := fun _ => b }) ⟨.inl rfl, .inl rfl, .inr hi, .inl rfl, .inl rfl⟩ s,
    fun _ _ => rfl,
    fun b hi => exec_apply (c := { st := fun _ => b }) ⟨.inl rfl, .inl rfl, .inl rfl, .inr hi, .inl rfl⟩ s,
    fun _ _ => rfl,
    fun g hi => exec_apply (c := { fb := fun _ => g }) ⟨.inl rfl, .inl rfl, .inl rfl, .inl rfl, .inr hi⟩ s,
    fun _ => rfl,
    fun u => exec_apply (c := { status := fun _ => u }) ⟨.inl rfl, .inl rfl, .inl rfl, .inl rfl, .inl rfl⟩ s⟩

end Sys2Proof.Machine
end

section
/-! The state after reset (10_state R40; 70_reset_and_hazards R250, R252). -/

namespace Sys2Proof.Machine

theorem State.reset_inv : State.reset.Inv := ⟨List.Pairwise.nil, fun _ hc => absurd hc List.not_mem_nil⟩

/-- Settles O17: memory at reset lists no cell, and placing an image that fits keeps the canonical form. -/
theorem resetMemoryIsCanonical : Obligations.ResetMemoryIsCanonical :=
  ⟨State.reset_inv, fun _ => State.ofImage_inv⟩

theorem State.reset_readByte {a : Nat} (h : a < Config.memSize) : State.reset.readByte a = resetByte a :=
  congrArg resetByte (Nat.mod_eq_of_lt h)

theorem resetByte_font {k : Nat} (h : k < 80) : resetByte (Config.fontBase + k) = font.getD k 0 := by
  have hin : Config.fontBase ≤ Config.fontBase + k ∧ Config.fontBase + k < Config.fontEnd := by
    simp only [Config.fontBase, Config.fontEnd]; omega
  rw [resetByte, if_pos hin, Nat.add_sub_cancel_left]

theorem resetByte_of_outside {a : Nat} (h : a < Config.fontBase ∨ Config.fontEnd ≤ a) : resetByte a = 0 :=
  if_neg (by omega)

theorem pixel_blankScreen (px py : Nat) : pixel blankScreen px py = false := by
  simp only [pixel, blankScreen, Vector.getElem_replicate]

/-- Settles O52: the fields are those `State.reset` lists, and every address reads as the reset contents. -/
theorem resetStateValues : Obligations.ResetStateValues := by
  have hfont : ∀ k < 80, State.reset.readByte (0x050 + k) = font.getD k 0 := fun k hk =>
    (State.reset_readByte (by simp only [Config.memSize]; omega)).trans (resetByte_font hk)
  refine ⟨rfl, rfl, rfl, rfl, fun r => Vector.getElem_replicate r.isLt, fun k hk => Vector.getElem_replicate hk, rfl,
    rfl, fun px _ py _ => pixel_blankScreen px py, rfl, rfl, fun a ha => ?_, hfont, hfont 0 (by decide),
    hfont 79 (by decide), fun a hlow hhigh => ?_⟩
  · exact (State.reset_readByte (by simp only [Config.memSize]; omega)).trans (resetByte_of_outside (.inl ha))
  · exact (State.reset_readByte hhigh).trans (resetByte_of_outside (.inr hlow))

end Sys2Proof.Machine
end

section
/-! Memory: the canonical form kept by every step, the last write to an effective address, and what a fetch sees
(20_memory R50 to R62). -/

namespace Sys2Proof.Machine

/-! ### The canonical form (R50, R55) -/

/-- An instruction that stores writes byte by byte, each at an address of the space; the others leave memory alone. -/
theorem Effect.inv {i : Instr} {s t : State} (e : Effect i s t) (h : s.Inv) : t.Inv := by
  cases e
  case store bs _ => exact State.writeBytes_inv h _ bs
  all_goals exact h

theorem exec_keeps_inv {i : Instr} {s t : State} (h : exec i s = .next t) (hs : s.Inv) : t.Inv :=
  (exec_effect h).inv hs

/-- Settles O16: a Reset builds a canonical memory of its own, a Cycle changes memory by its instruction only, and ticks
change no byte. -/
theorem stepKeepsMemoryCanonical : Obligations.StepKeepsMemoryCanonical := by
  intro s t hs h
  obtain ⟨image, rest, -, hfits, rfl⟩ | ⟨keys, draw, rest, i, -, -, -, he⟩ | ⟨rest, -, -, rfl⟩ |
    ⟨i, u, -, -, -, he, rfl⟩ := step_next h
  · exact State.ofImage_inv hfits
  · exact exec_keeps_inv he hs
  · exact hs
  · have hu : u.Inv := exec_keeps_inv he hs
    exact hu

/-! ### Single writes (R55, R58, R60) -/

theorem ea_add_memSize (a : Nat) : ea (a + 4096) = ea a := Nat.add_mod_right a 4096

/-- Equal effective addresses write the same byte (20_memory R55). -/
theorem State.writeByte_congr (s : State) {a c : Nat} (h : ea a = ea c) (b : Byte) :
    s.writeByte a b = s.writeByte c b := by
  simp only [State.writeByte, h]

/-- Settles O42: 4096 more is the same effective address. -/
theorem addressesWrap : Obligations.AddressesWrap := fun s a b =>
  ⟨s.readByte_congr (ea_add_memSize a), s.writeByte_congr (ea_add_memSize a) b⟩

theorem State.foldl_writeByte_inv {s : State} (h : s.mem.wf) (writes : List (Nat × Byte)) :
    (writes.foldl (fun t w => t.writeByte w.1 w.2) s).mem.wf := by
  induction writes generalizing s with
  | nil => exact h
  | cons w writes ih => exact ih (State.writeByte_inv h w.1 w.2)

/-- Settles O41, by induction on the writes from the last back: the last one decides, or the byte reads as before it. -/
theorem memoryReadsTheLastWrite : Obligations.MemoryReadsTheLastWrite := by
  intro writes s a hm
  induction writes using List.reverseRecOn with
  | nil => rfl
  | append_singleton ws w ih =>
    have hlast := State.readByte_writeByte (State.foldl_writeByte_inv hm ws) w.1 a w.2
    rw [List.foldl_concat, hlast, List.reverse_concat, List.find?_cons]
    by_cases hw : w.1 % 4096 = a % 4096
    · rw [if_pos (show ea a = ea w.1 from hw.symm), beq_iff_eq.2 hw]
    · rw [if_neg (show ea a ≠ ea w.1 from Ne.symm hw), beq_eq_false_iff_ne.2 hw]
      exact ih

/-! ### Words (R52, R62) -/

/-- Two bytes as a number, the one at the lower address high (R52). -/
theorem wordOfBytes_toNat (b c : Byte) : (wordOfBytes b c).toNat = b.toNat * 256 + c.toNat := by
  rw [wordOfBytes, BitVec.toNat_append, ← Nat.shiftLeft_add_eq_or_of_lt c.isLt, Nat.shiftLeft_eq]

theorem State.fetchWord_eq (s : State) :
    s.fetchWord = wordOfBytes (s.readByte s.pc.toNat) (s.readByte (s.pc.toNat + 1)) := rfl

/-- After LD [I], Vx the byte at `I + k` is `V[k]` (43_index_memory R174). -/
theorem exec_dump_readByte {x k : RegNum} {s t : State} (hm : Memory.wf s.mem) (h : exec (.dump x) s = .next t)
    (hk : k ≤ x) : t.readByte (s.index.toNat + k.val) = s.reg k := by
  cases h
  have hlen : ((regsUpTo x).map s.reg).length = x.val + 1 := by rw [List.length_map, regsUpTo_length]
  have hread := State.readByte_writeBytes hm (a := s.index.toNat) (k := k.val) (bs := (regsUpTo x).map s.reg)
    (by simp only [hlen, Config.memSize]; omega) (by rw [hlen]; exact Nat.lt_succ_of_le hk)
  rw [List.getElem_map, regsUpTo_get x k hk] at hread
  exact hread

/-- Settles O43: the two bytes fetched are the stored `V[j]` and `V[j + 1]`, since effective addresses keep step. -/
theorem fetchSeesTheStore : Obligations.FetchSeesTheStore := by
  intro x j k s t p hm h hk hkj hp
  have hjx : j ≤ x := Fin.le_def.2 (by have := Fin.le_def.1 hk; omega)
  have hfirst : t.readByte p.toNat = s.reg j := (t.readByte_congr hp).trans (exec_dump_readByte hm h hjx)
  have hnext : ea (p.toNat + 1) = ea (s.index.toNat + k.val) := by simp only [ea, Config.memSize]; omega
  have hsecond : t.readByte (p.toNat + 1) = s.reg k := (t.readByte_congr hnext).trans (exec_dump_readByte hm h hk)
  calc ({ t with pc := p } : State).fetchWord.toNat
      = (wordOfBytes (t.readByte p.toNat) (t.readByte (p.toNat + 1))).toNat := rfl
    _ = (s.reg j).toNat * 256 + (s.reg k).toNat := by rw [hfirst, hsecond, wordOfBytes_toNat]

/-! ### A placed word (R52) -/

@[simp] theorem placeWord_pc (s : State) (w : Word) : (placeWord s w).pc = s.pc := State.writeBytes_pc s _ _

/-- Besides the word, placing it changes STATUS and the pending events, and no read sees those. -/
theorem placeWord_readByte (s : State) (w : Word) (a : Nat) :
    (placeWord s w).readByte a = (s.writeBytes s.pc.toNat (bytesOfWord w)).readByte a := rfl

theorem placeWord_fetchWord {s : State} (hm : Memory.wf s.mem) (w : Word) : (placeWord s w).fetchWord = w := by
  have hbyte {k : Nat} (hk : k < (bytesOfWord w).length) :
      (placeWord s w).readByte (s.pc.toNat + k) = (bytesOfWord w)[k] :=
    State.readByte_writeBytes hm (bs := bytesOfWord w) (show 2 ≤ Config.memSize by decide) hk
  have hhigh : (placeWord s w).readByte s.pc.toNat = w.extractLsb' 8 8 := hbyte (k := 0) Nat.zero_lt_two
  have hlow : (placeWord s w).readByte (s.pc.toNat + 1) = w.extractLsb' 0 8 := hbyte (k := 1) Nat.one_lt_two
  rw [State.fetchWord_eq, placeWord_pc, hhigh, hlow, wordOfBytes_bytesOfWord]

theorem placeWord_readByte_of_ne {s : State} (hm : Memory.wf s.mem) (w : Word) {a : Nat}
    (h0 : ea a ≠ ea s.pc.toNat) (h1 : ea a ≠ ea (s.pc.toNat + 1)) : (placeWord s w).readByte a = s.readByte a := by
  rw [placeWord_readByte]
  refine State.readByte_writeBytes_of_ne hm fun k hk => ?_
  obtain rfl | rfl : k = 0 ∨ k = 1 := Nat.le_one_iff_eq_zero_or_eq_one.1 (Nat.lt_succ_iff.1 hk)
  · exact h0
  · exact h1

/-- Settles O14: `withFetchWord` is `placeWord` of the `nbits` low bits, whose fetch and frame are the lemmas above. -/
theorem placedWordIsFetched : Obligations.PlacedWordIsFetched := fun s _ _ hm =>
  ⟨placeWord_fetchWord hm _, placeWord_pc s _, fun _ => placeWord_readByte_of_ne hm _⟩

end Sys2Proof.Machine
end

section
/-! The encoding (30_encoding R70 to R80): the fields of a word, the rows of R78 in terms of them, the decoder against
the table, and the illegal words. -/

namespace Sys2Proof

/-! ### The fields as slices of the word (R71) -/

/-- A field of `len` bits is a shift and a mask of `len` ones. -/
theorem setWidth_extractLsb' (w : Word) (start : Nat) {len : Nat} (h : len ≤ 16) :
    (w.extractLsb' start len).setWidth 16 = (w >>> start) &&& BitVec.ofNat 16 (2 ^ len - 1) := by
  have hpow : 2 ^ len ≤ 2 ^ 16 := Nat.pow_le_pow_right Nat.two_pos h
  have hpos : 0 < 2 ^ len := Nat.two_pow_pos len
  apply BitVec.eq_of_toNat_eq
  rw [BitVec.toNat_setWidth, BitVec.extractLsb'_toNat, BitVec.toNat_and, BitVec.toNat_ushiftRight, BitVec.toNat_ofNat,
    Nat.mod_eq_of_lt (show 2 ^ len - 1 < 2 ^ 16 by omega), Nat.and_two_pow_sub_one_eq_mod]
  exact Nat.mod_eq_of_lt ((Nat.mod_lt _ hpos).trans_le hpow)

/-- A register number as a word is its four bits. -/
theorem ofNat_val_toFin (b : BitVec 4) : BitVec.ofNat 16 b.toFin.val = b.setWidth 16 := by
  rw [BitVec.val_toFin, BitVec.ofNat_toNat]

/-- Settles O9: each field is one slice of the word. -/
theorem fieldsAreBitMasks : Obligations.FieldsAreBitMasks := fun w =>
  have slice (start len : Nat) (h : len ≤ 16) := setWidth_extractLsb' w start h
  ⟨slice 12 4 (by decide), (ofNat_val_toFin _).trans (slice 8 4 (by decide)),
    (ofNat_val_toFin _).trans (slice 4 4 (by decide)), slice 0 4 (by decide), slice 0 8 (by decide),
    slice 0 12 (by decide)⟩

/-! ### A word is its fields (R72) -/

theorem toNat_wordXK (p : BitVec 4) (x : RegNum) (kk : Byte) :
    (wordXK p x kk).toNat = p.toNat * 4096 + x.val * 256 + kk.toNat := by
  rw [wordXK, BitVec.toNat_append, BitVec.toNat_append, ← Nat.shiftLeft_add_eq_or_of_lt kk.isLt,
    ← Nat.shiftLeft_add_eq_or_of_lt (BitVec.isLt _)]
  simp only [Nat.shiftLeft_eq, BitVec.toNat_ofFin]
  omega

theorem wordXK_fields (w : Word) : wordXK (fieldP w) (fieldX w) (fieldKk w) = w := by
  apply BitVec.eq_of_toNat_eq
  simp only [toNat_wordXK, fieldP, fieldX, fieldKk, BitVec.val_toFin, BitVec.extractLsb'_toNat,
    Nat.shiftRight_eq_div_pow]
  omega

/-- The low byte is `y` and `n`. -/
theorem wordXK_fieldKk (p : BitVec 4) (x : RegNum) (w : Word) :
    wordXK p x (fieldKk w) = wordXYN p x (fieldY w) (fieldN w) := by
  have hkk : (BitVec.ofFin (w := 4) (fieldY w) ++ fieldN w : BitVec 8) = fieldKk w :=
    BitVec.extractLsb'_append_extractLsb'_eq_extractLsb' rfl
  rw [wordXYN_eq, hkk]

theorem wordXYN_fields (w : Word) : wordXYN (fieldP w) (fieldX w) (fieldY w) (fieldN w) = w := by
  rw [← wordXK_fieldKk, wordXK_fields]

/-! ### Masks act field by field (R78) -/

theorem wordXYN_and (p q : BitVec 4) (x x' y y' : RegNum) (n n' : BitVec 4) :
    wordXYN p x y n &&& wordXYN q x' y' n' = wordXYN (p &&& q) (x &&& x') (y &&& y') (n &&& n') := by
  have hreg (a b : RegNum) : BitVec.ofFin (w := 4) (a &&& b) = BitVec.ofFin a &&& BitVec.ofFin b :=
    BitVec.eq_of_toFin_eq (BitVec.toFin_and (v := 4) ⟨a⟩ ⟨b⟩).symm
  simp only [wordXYN, hreg]
  exact BitVec.and_append.trans (congrArg₂ _ BitVec.and_append BitVec.and_append)

theorem wordXYN_or (p q : BitVec 4) (x x' y y' : RegNum) (n n' : BitVec 4) :
    wordXYN p x y n ||| wordXYN q x' y' n' = wordXYN (p ||| q) (x ||| x') (y ||| y') (n ||| n') := by
  have hreg (a b : RegNum) : BitVec.ofFin (w := 4) (a ||| b) = BitVec.ofFin a ||| BitVec.ofFin b :=
    BitVec.eq_of_toFin_eq (BitVec.toFin_or (v := 4) ⟨a⟩ ⟨b⟩).symm
  simp only [wordXYN, hreg]
  exact BitVec.or_append.trans (congrArg₂ _ BitVec.or_append BitVec.or_append)

theorem and_wordXYN (w : Word) (p : BitVec 4) (x y : RegNum) (n : BitVec 4) :
    w &&& wordXYN p x y n = wordXYN (fieldP w &&& p) (fieldX w &&& x) (fieldY w &&& y) (fieldN w &&& n) := by
  rw [← wordXYN_and, wordXYN_fields]

@[simp] theorem nibble_and_ones (b : BitVec 4) : b &&& 15#4 = b := BitVec.and_allOnes
@[simp] theorem regNum_and_ones : ∀ x : RegNum, x &&& 15 = x := by decide
@[simp] theorem regNum_and_zero : ∀ x : RegNum, x &&& 0 = 0 := by decide
@[simp] theorem regNum_zero_or : ∀ x : RegNum, 0 ||| x = x := by decide
@[simp] theorem regNum_or_zero : ∀ x : RegNum, x ||| 0 = x := by decide

/-! The three masks of the table keep the primary code, or it and the secondary key (R75). -/

theorem mask_primary {w : Word} (p : BitVec 4) (hp : (fieldP w).toNat = p.toNat) :
    (w &&& 0xF000 == wordXYN p 0 0 0) = true := by
  have hmask : w &&& 0xF000 = wordXYN (fieldP w) 0 0 0 := (and_wordXYN w 0xF 0 0 0).trans (by simp)
  rw [hmask, BitVec.eq_of_toNat_eq hp, beq_self_eq_true]

theorem mask_byte {w : Word} (p : BitVec 4) (kk : Byte) (hp : (fieldP w).toNat = p.toNat)
    (hk : (fieldKk w).toNat = kk.toNat) : (w &&& 0xF0FF == wordXK p 0 kk) = true := by
  have hmask : w &&& 0xF0FF = wordXK (fieldP w) 0 (fieldKk w) :=
    (and_wordXYN w 0xF 0 15 0xF).trans (by simp [wordXK_fieldKk])
  rw [hmask, BitVec.eq_of_toNat_eq hp, BitVec.eq_of_toNat_eq hk, beq_self_eq_true]

theorem mask_nibble {w : Word} (p n : BitVec 4) (hp : (fieldP w).toNat = p.toNat)
    (hn : (fieldN w).toNat = n.toNat) : (w &&& 0xF00F == wordXYN p 0 0 n) = true := by
  have hmask : w &&& 0xF00F = wordXYN (fieldP w) 0 0 (fieldN w) := (and_wordXYN w 0xF 0 0 0xF).trans (by simp)
  rw [hmask, BitVec.eq_of_toNat_eq hp, BitVec.eq_of_toNat_eq hn, beq_self_eq_true]

/-! Encoding the fields of a word gives the fixed bits and the word's operand bits (R72, R78). -/

theorem wordXYN_operands (p : BitVec 4) (w : Word) :
    wordXYN p (fieldX w) (fieldY w) (fieldN w) = wordXYN p 0 0 0 ||| (w &&& 0x0FFF#16) := by
  have hmask : w &&& 0x0FFF#16 = wordXYN 0 (fieldX w) (fieldY w) (fieldN w) :=
    (and_wordXYN w 0 15 15 0xF).trans (by simp)
  simp [hmask, wordXYN_or]

theorem wordXK_operands (p : BitVec 4) (w : Word) :
    wordXK p (fieldX w) (fieldKk w) = wordXYN p 0 0 0 ||| (w &&& 0x0FFF#16) :=
  (wordXK_fieldKk p _ w).trans (wordXYN_operands p w)

theorem wordA_operands (p : BitVec 4) (w : Word) :
    wordA p (fieldNnn w) = wordXYN p 0 0 0 ||| (w &&& 0x0FFF#16) := by
  have hword : wordA p (fieldNnn w) = wordXK p (fieldX w) (fieldKk w) := by
    apply BitVec.eq_of_toNat_eq
    rw [toNat_wordXK, wordA, BitVec.toNat_append, ← Nat.shiftLeft_add_eq_or_of_lt (fieldNnn w).isLt, Nat.shiftLeft_eq]
    simp only [fieldX, fieldKk, fieldNnn, BitVec.val_toFin, BitVec.extractLsb'_toNat, Nat.shiftRight_eq_div_pow]
    omega
  rw [hword, wordXK_operands]

theorem wordXY_operands (p n : BitVec 4) (w : Word) :
    wordXYN p (fieldX w) (fieldY w) n = wordXYN p 0 0 n ||| (w &&& 0x0FF0#16) := by
  have hmask : w &&& 0x0FF0#16 = wordXYN 0 (fieldX w) (fieldY w) 0 := (and_wordXYN w 0 15 15 0).trans (by simp)
  simp [hmask, wordXYN_or]

theorem wordXS_operands (p : BitVec 4) (y : RegNum) (n : BitVec 4) (w : Word) :
    wordXYN p (fieldX w) y n = wordXYN p 0 y n ||| (w &&& 0x0F00#16) := by
  have hmask : w &&& 0x0F00#16 = wordXYN 0 (fieldX w) 0 0 := (and_wordXYN w 0 15 0 0).trans (by simp)
  simp [hmask, wordXYN_or]

/-! ### The decoder, the table and the illegal words (R74 to R80) -/

/-- The illegal words of R80: the secondary key of a two-level primary has no handler. -/
def IllegalWord (w : Word) : Prop :=
  (fieldP w = 0x0 ∧ fieldKk w ≠ 0xE0 ∧ fieldKk w ≠ 0xEE) ∨
  (fieldP w = 0x8 ∧ fieldN w ∈ [0x8, 0x9, 0xA, 0xB, 0xC, 0xD, 0xF]) ∨
  (fieldP w = 0xE ∧ fieldKk w ≠ 0x9E ∧ fieldKk w ≠ 0xA1) ∨
  (fieldP w = 0xF ∧ fieldKk w ∉ [0x07, 0x0A, 0x15, 0x18, 0x1E, 0x29, 0x33, 0x55, 0x65])

theorem mem_table {r : OpcodeRow} (k : Nat) (h : opcodeTable[k]? = some r) : r ∈ opcodeTable :=
  List.mem_of_getElem? h

theorem ne_of_toNat_ne {n : Nat} {a b : BitVec n} (h : a.toNat ≠ b.toNat) : a ≠ b := fun hab => h (congrArg _ hab)

/-- The nibbles that primary 0x8 has no handler for are those left over (R75, R80). -/
theorem nibble_without_handler : ∀ n : BitVec 4, n.toNat ≠ 0x0 → n.toNat ≠ 0x1 → n.toNat ≠ 0x2 → n.toNat ≠ 0x3 →
    n.toNat ≠ 0x4 → n.toNat ≠ 0x5 → n.toNat ≠ 0x6 → n.toNat ≠ 0x7 → n.toNat ≠ 0xE →
    n ∈ [0x8, 0x9, 0xA, 0xB, 0xC, 0xD, 0xF] := by decide

theorem byte_without_handler {b : Byte} (h07 : b.toNat ≠ 0x07) (h0A : b.toNat ≠ 0x0A) (h15 : b.toNat ≠ 0x15)
    (h18 : b.toNat ≠ 0x18) (h1E : b.toNat ≠ 0x1E) (h29 : b.toNat ≠ 0x29) (h33 : b.toNat ≠ 0x33)
    (h55 : b.toNat ≠ 0x55) (h65 : b.toNat ≠ 0x65) :
    b ∉ [0x07, 0x0A, 0x15, 0x18, 0x1E, 0x29, 0x33, 0x55, 0x65] := by
  simp [BitVec.toNat_eq, *]

/-- An illegal word finds no handler for its secondary key. -/
theorem decodeWord_of_illegal {w : Word} (h : IllegalWord w) :
    decodeWord w = .error (.noHandler (fieldP w) (fieldKk w)) := by
  obtain ⟨hp, hE0, hEE⟩ | ⟨hp, hn⟩ | ⟨hp, h9E, hA1⟩ | ⟨hp, hk⟩ := h
  · simp_all [decodeWord, BitVec.toNat_eq]
  · simp only [List.mem_cons, List.not_mem_nil, or_false] at hn
    obtain hn | hn | hn | hn | hn | hn | hn := hn <;> simp [decodeWord, hp, hn]
  · simp_all [decodeWord, BitVec.toNat_eq]
  · simp_all [decodeWord, BitVec.toNat_eq]

/-- A word decodes by a row that holds, or is illegal: the handlers of R104 in order, each with its row and keys. -/
theorem decodeWord_cases (w : Word) :
    (∃ r ∈ opcodeTable, r.holds w = true ∧ decodeWord w = .ok (r.read w)) ∨ IllegalWord w := by
  unfold decodeWord
  dsimp only
  split
  case h_1 hp =>
    split
    case h_1 hk => exact .inl ⟨_, mem_table 0 rfl, mask_byte 0x0 0xE0 hp hk, rfl⟩
    case h_2 hk => exact .inl ⟨_, mem_table 1 rfl, mask_byte 0x0 0xEE hp hk, rfl⟩
    case h_3 hE0 hEE =>
      exact .inr (.inl ⟨BitVec.eq_of_toNat_eq hp, ne_of_toNat_ne hE0, ne_of_toNat_ne hEE⟩)
  case h_2 hp => exact .inl ⟨_, mem_table 2 rfl, mask_primary 0x1 hp, rfl⟩
  case h_3 hp => exact .inl ⟨_, mem_table 3 rfl, mask_primary 0x2 hp, rfl⟩
  case h_4 hp => exact .inl ⟨_, mem_table 4 rfl, mask_primary 0x3 hp, rfl⟩
  case h_5 hp => exact .inl ⟨_, mem_table 5 rfl, mask_primary 0x4 hp, rfl⟩
  case h_6 hp => exact .inl ⟨_, mem_table 6 rfl, mask_primary 0x5 hp, rfl⟩
  case h_7 hp => exact .inl ⟨_, mem_table 7 rfl, mask_primary 0x6 hp, rfl⟩
  case h_8 hp => exact .inl ⟨_, mem_table 8 rfl, mask_primary 0x7 hp, rfl⟩
  case h_9 hp =>
    split
    case h_1 hn => exact .inl ⟨_, mem_table 9 rfl, mask_nibble 0x8 0x0 hp hn, rfl⟩
    case h_2 hn => exact .inl ⟨_, mem_table 10 rfl, mask_nibble 0x8 0x1 hp hn, rfl⟩
    case h_3 hn => exact .inl ⟨_, mem_table 11 rfl, mask_nibble 0x8 0x2 hp hn, rfl⟩
    case h_4 hn => exact .inl ⟨_, mem_table 12 rfl, mask_nibble 0x8 0x3 hp hn, rfl⟩
    case h_5 hn => exact .inl ⟨_, mem_table 13 rfl, mask_nibble 0x8 0x4 hp hn, rfl⟩
    case h_6 hn => exact .inl ⟨_, mem_table 14 rfl, mask_nibble 0x8 0x5 hp hn, rfl⟩
    case h_7 hn => exact .inl ⟨_, mem_table 15 rfl, mask_nibble 0x8 0x6 hp hn, rfl⟩
    case h_8 hn => exact .inl ⟨_, mem_table 16 rfl, mask_nibble 0x8 0x7 hp hn, rfl⟩
    case h_9 hn => exact .inl ⟨_, mem_table 17 rfl, mask_nibble 0x8 0xE hp hn, rfl⟩
    case h_10 h0 h1 h2 h3 h4 h5 h6 h7 hE =>
      exact .inr (.inr (.inl ⟨BitVec.eq_of_toNat_eq hp, nibble_without_handler _ h0 h1 h2 h3 h4 h5 h6 h7 hE⟩))
  case h_10 hp => exact .inl ⟨_, mem_table 18 rfl, mask_primary 0x9 hp, rfl⟩
  case h_11 hp => exact .inl ⟨_, mem_table 19 rfl, mask_primary 0xA hp, rfl⟩
  case h_12 hp => exact .inl ⟨_, mem_table 20 rfl, mask_primary 0xB hp, rfl⟩
  case h_13 hp => exact .inl ⟨_, mem_table 21 rfl, mask_primary 0xC hp, rfl⟩
  case h_14 hp => exact .inl ⟨_, mem_table 22 rfl, mask_primary 0xD hp, rfl⟩
  case h_15 hp =>
    split
    case h_1 hk => exact .inl ⟨_, mem_table 23 rfl, mask_byte 0xE 0x9E hp hk, rfl⟩
    case h_2 hk => exact .inl ⟨_, mem_table 24 rfl, mask_byte 0xE 0xA1 hp hk, rfl⟩
    case h_3 h9E hA1 =>
      exact .inr (.inr (.inr (.inl ⟨BitVec.eq_of_toNat_eq hp, ne_of_toNat_ne h9E, ne_of_toNat_ne hA1⟩)))
  case h_16 =>
    have hp : (fieldP w).toNat = 15 := by
      have := (fieldP w).isLt
      grind
    split
    case h_1 hk => exact .inl ⟨_, mem_table 25 rfl, mask_byte 0xF 0x07 hp hk, rfl⟩
    case h_2 hk => exact .inl ⟨_, mem_table 26 rfl, mask_byte 0xF 0x0A hp hk, rfl⟩
    case h_3 hk => exact .inl ⟨_, mem_table 27 rfl, mask_byte 0xF 0x15 hp hk, rfl⟩
    case h_4 hk => exact .inl ⟨_, mem_table 28 rfl, mask_byte 0xF 0x18 hp hk, rfl⟩
    case h_5 hk => exact .inl ⟨_, mem_table 29 rfl, mask_byte 0xF 0x1E hp hk, rfl⟩
    case h_6 hk => exact .inl ⟨_, mem_table 30 rfl, mask_byte 0xF 0x29 hp hk, rfl⟩
    case h_7 hk => exact .inl ⟨_, mem_table 31 rfl, mask_byte 0xF 0x33 hp hk, rfl⟩
    case h_8 hk => exact .inl ⟨_, mem_table 32 rfl, mask_byte 0xF 0x55 hp hk, rfl⟩
    case h_9 hk => exact .inl ⟨_, mem_table 33 rfl, mask_byte 0xF 0x65 hp hk, rfl⟩
    case h_10 h07 h0A h15 h18 h1E h29 h33 h55 h65 =>
      exact .inr (.inr (.inr (.inr
        ⟨BitVec.eq_of_toNat_eq hp, byte_without_handler h07 h0A h15 h18 h1E h29 h33 h55 h65⟩)))

/-- A row without operand bits reads none of the word. -/
theorem or_and_zero (w c : Word) : c = c ||| (w &&& 0#16) := by rw [BitVec.and_zero, BitVec.or_zero]

/-- Reading a word by a row and encoding the result gives the row's fixed bits and the word's operand bits. -/
theorem encodeWord_read (w : Word) : ∀ r ∈ opcodeTable,
    (r.read w).wellFormed = true ∧ encodeWord (r.read w) = r.pattern ||| (w &&& r.operands) := by
  have hdrw : BitVec.ofNat 4 (fieldN w).toNat = fieldN w := (BitVec.ofNat_toNat ..).trans (BitVec.setWidth_eq _)
  simp only [opcodeTable, opcodeRowsLow, opcodeRowsHigh, List.cons_append, List.nil_append, List.forall_mem_cons,
    Instr.wellFormed, encodeWord, true_and, hdrw]
  exact ⟨or_and_zero w _, or_and_zero w _, wordA_operands 0x1 w, wordA_operands 0x2 w, wordXK_operands 0x3 w,
    wordXK_operands 0x4 w, wordXY_operands 0x5 0 w, wordXK_operands 0x6 w, wordXK_operands 0x7 w,
    wordXY_operands 0x8 0x0 w, wordXY_operands 0x8 0x1 w, wordXY_operands 0x8 0x2 w, wordXY_operands 0x8 0x3 w,
    wordXY_operands 0x8 0x4 w, wordXY_operands 0x8 0x5 w, wordXS_operands 0x8 0 0x6 w, wordXY_operands 0x8 0x7 w,
    wordXS_operands 0x8 0 0xE w, wordXY_operands 0x9 0 w, wordA_operands 0xA w, wordA_operands 0xB w,
    wordXK_operands 0xC w, ⟨decide_eq_true (fieldN w).isLt, wordXYN_operands 0xD w⟩, wordXS_operands 0xE 0x9 0xE w,
    wordXS_operands 0xE 0xA 0x1 w, wordXS_operands 0xF 0x0 0x7 w, wordXS_operands 0xF 0x0 0xA w,
    wordXS_operands 0xF 0x1 0x5 w, wordXS_operands 0xF 0x1 0x8 w, wordXS_operands 0xF 0x1 0xE w,
    wordXS_operands 0xF 0x2 0x9 w, wordXS_operands 0xF 0x3 0x3 w, wordXS_operands 0xF 0x5 0x5 w,
    wordXS_operands 0xF 0x6 0x5 w, List.forall_mem_nil _⟩

/-- Settles O3: two rows that hold for one word agree on the bits that both fix, and no two rows do. -/
theorem atMostOneRowHolds : Obligations.AtMostOneRowHolds := by
  have hconflict : opcodeTable.Pairwise fun r q => r.pattern &&& q.mask ≠ q.pattern &&& r.mask := by decide
  refine ⟨rfl, hconflict.imp fun {r q} hne w ⟨hr, hq⟩ => hne ?_⟩
  calc r.pattern &&& q.mask = w &&& r.mask &&& q.mask := by rw [beq_iff_eq.1 hr]
    _ = w &&& q.mask &&& r.mask := by rw [BitVec.and_assoc, BitVec.and_comm r.mask, BitVec.and_assoc]
    _ = q.pattern &&& r.mask := by rw [beq_iff_eq.1 hq]

/-- Settles O8: the row the decoder reads by is the row that holds. -/
theorem decodedWordsEncodeBack : Obligations.DecodedWordsEncodeBack := by
  intro w i h
  obtain ⟨r, hr, hholds, hread⟩ | hill := decodeWord_cases w
  · obtain rfl : r.read w = i := Except.ok.inj (hread.symm.trans h)
    obtain ⟨hwf, hencode⟩ := encodeWord_read w r hr
    refine ⟨hwf, r, hr, hholds, ?_⟩
    rw [hencode, ← beq_iff_eq.1 hholds, BitVec.and_or_distrib_left]
  · rw [decodeWord_of_illegal hill] at h
    cases h

/-- The family RoundTrip, for every constructor. -/
theorem decodeWord_encodeWord : ∀ i, Laws.RoundTrip.Statement i
  | .cls => Laws.RoundTrip.cls
  | .ret => Laws.RoundTrip.ret
  | .jp nnn => Laws.RoundTrip.jp nnn
  | .call nnn => Laws.RoundTrip.call nnn
  | .seImm x kk => Laws.RoundTrip.seImm x kk
  | .sneImm x kk => Laws.RoundTrip.sneImm x kk
  | .seReg x y => Laws.RoundTrip.seReg x y
  | .ldImm x kk => Laws.RoundTrip.ldImm x kk
  | .addImm x kk => Laws.RoundTrip.addImm x kk
  | .ldReg x y => Laws.RoundTrip.ldReg x y
  | .orReg x y => Laws.RoundTrip.orReg x y
  | .andReg x y => Laws.RoundTrip.andReg x y
  | .xorReg x y => Laws.RoundTrip.xorReg x y
  | .addReg x y => Laws.RoundTrip.addReg x y
  | .subReg x y => Laws.RoundTrip.subReg x y
  | .shr x => Laws.RoundTrip.shr x
  | .subnReg x y => Laws.RoundTrip.subnReg x y
  | .shl x => Laws.RoundTrip.shl x
  | .sneReg x y => Laws.RoundTrip.sneReg x y
  | .ldI nnn => Laws.RoundTrip.ldI nnn
  | .jpV0 nnn => Laws.RoundTrip.jpV0 nnn
  | .rnd x kk => Laws.RoundTrip.rnd x kk
  | .drw x y n => Laws.RoundTrip.drw x y n
  | .skp x => Laws.RoundTrip.skp x
  | .sknp x => Laws.RoundTrip.sknp x
  | .ldVxDt x => Laws.RoundTrip.ldVxDt x
  | .ldVxKey x => Laws.RoundTrip.ldVxKey x
  | .ldDtVx x => Laws.RoundTrip.ldDtVx x
  | .ldStVx x => Laws.RoundTrip.ldStVx x
  | .addI x => Laws.RoundTrip.addI x
  | .ldFont x => Laws.RoundTrip.ldFont x
  | .ldBcd x => Laws.RoundTrip.ldBcd x
  | .dump x => Laws.RoundTrip.dump x
  | .load x => Laws.RoundTrip.load x

/-- Settles O1: the bytes of an instruction are those of its word, and the word decodes to it. -/
theorem decodeInvertsEncode : Obligations.DecodeInvertsEncode := by
  intro i rest h
  rw [encode, decode_bytesOfWord, decodeWord_encodeWord i h]

/-- Settles O4: a word that is not illegal decodes by a row. -/
theorem illegalWordsAreRejected : Obligations.IllegalWordsAreRejected := by
  intro w
  refine ⟨fun herr => ?_, decodeWord_of_illegal⟩
  obtain ⟨r, -, -, hread⟩ | hill := decodeWord_cases w
  · rw [hread] at herr
    cases herr
  · exact hill

/-- Settles O6: none of these bits is in a key. -/
theorem ignoredBitsDoNotMatter : Obligations.IgnoredBitsDoNotMatter := by
  refine ⟨fun x => ?_, fun x y n => ?_, fun x y => ?_⟩
  · simp [decodeWord, fieldP_wordXK, fieldKk_wordXK]
  · simp [decodeWord, fieldP_wordXYN, fieldX_wordXYN, fieldY_wordXYN]
  · simp [decodeWord, fieldP_wordXYN, fieldX_wordXYN, fieldN_wordXYN]

/-- Settles O7, by running the decoder on each word. -/
theorem writtenOutWordsDecode : Obligations.WrittenOutWordsDecode :=
  ⟨rfl, rfl, rfl, rfl, rfl, rfl, rfl, rfl, rfl, rfl, rfl⟩

/-! ### How many words are illegal (R80) -/

/-- Whether the decoder rejects a word. -/
def rejected (w : Word) : Bool := !(decodeWord w).isOk

theorem rejected_iff (w : Word) : rejected w = true ↔ IllegalWord w := by
  obtain ⟨r, -, -, hread⟩ | hill := decodeWord_cases w
  · refine iff_of_false (by simp [rejected, hread, Except.isOk, Except.toBool]) fun hill => ?_
    rw [decodeWord_of_illegal hill] at hread
    cases hread
  · exact iff_of_true (by simp [rejected, decodeWord_of_illegal hill, Except.isOk, Except.toBool]) hill

/-- The field `x` is never part of the key (R74). -/
theorem rejected_wordXK (p : BitVec 4) (x : RegNum) (kk : Byte) :
    rejected (wordXK p x kk) = rejected (wordXK p 0 kk) := by
  rw [Bool.eq_iff_iff, rejected_iff, rejected_iff]
  simp only [IllegalWord, fieldP_wordXK, fieldKk_wordXK, fieldN_wordXK]

/-- How many bytes the decoder rejects under a primary code: R80's count, for one value of `x`. -/
def rejectedBytes (p : BitVec 4) : Nat :=
  (List.range 256).countP fun kk => rejected (wordXK p 0 (BitVec.ofNat 8 kk))

theorem rejectedBytes_two_level : rejectedBytes 0x0#4 = 254 ∧ rejectedBytes 0x8#4 = 112 ∧
    rejectedBytes 0xE#4 = 254 ∧ rejectedBytes 0xF#4 = 247 := by decide +kernel

theorem rejectedBytes_of_one_level {p : BitVec 4} (hp : p ∉ [0x0, 0x8, 0xE, 0xF]) : rejectedBytes p = 0 := by
  refine List.countP_eq_zero.2 fun kk _ h => hp ?_
  rw [rejected_iff, IllegalWord, fieldP_wordXK] at h
  obtain ⟨rfl, _⟩ | ⟨rfl, _⟩ | ⟨rfl, _⟩ | ⟨rfl, _⟩ := h <;> decide

/-- Counting over `m` blocks of `n` numbers. -/
theorem countP_range_mul (f : Nat → Bool) (m n : Nat) :
    (List.range (m * n)).countP f = ((List.range m).map fun i => (List.range n).countP fun j => f (i * n + j)).sum := by
  induction m with
  | zero => simp
  | succ m ih => simp [Nat.succ_mul, List.range_add, List.range_succ, ih, List.countP_map, Function.comp_def]

theorem ofNat_eq_wordXK (p : Nat) {x kk : Nat} (hx : x < 16) (hk : kk < 256) :
    BitVec.ofNat 16 (p * 4096 + (x * 256 + kk)) = wordXK (BitVec.ofNat 4 p) ⟨x, hx⟩ (BitVec.ofNat 8 kk) := by
  apply BitVec.eq_of_toNat_eq
  rw [toNat_wordXK]
  simp only [BitVec.toNat_ofNat]
  omega

/-- The 4096 words of a primary code: as many are rejected for each of the 16 values of `x`. -/
theorem countP_rejected_of_primary (p : Nat) :
    ((List.range (16 * 256)).countP fun j => rejected (BitVec.ofNat 16 (p * 4096 + j))) =
      16 * rejectedBytes (BitVec.ofNat 4 p) := by
  have hx : ∀ x ∈ List.range 16,
      ((List.range 256).countP fun kk => rejected (BitVec.ofNat 16 (p * 4096 + (x * 256 + kk)))) =
        rejectedBytes (BitVec.ofNat 4 p) := fun x hx =>
    List.countP_congr fun kk hk => by
      rw [ofNat_eq_wordXK p (List.mem_range.1 hx) (List.mem_range.1 hk), rejected_wordXK]
  rw [countP_range_mul, List.map_congr_left hx, List.map_const', List.sum_replicate, List.length_range, smul_eq_mul]

/-- Settles O5: R80's table, 16 times the rejected bytes of each primary code. -/
theorem illegalWordCount : Obligations.IllegalWordCount := by
  obtain ⟨h0, h8, hE, hF⟩ := rejectedBytes_two_level
  calc ((List.range 65536).filter fun w => rejected (BitVec.ofNat 16 w)).length
      = (List.range (16 * (16 * 256))).countP fun w => rejected (BitVec.ofNat 16 w) :=
        List.countP_eq_length_filter.symm
    _ = ((List.range 16).map fun p => 16 * rejectedBytes (BitVec.ofNat 4 p)).sum := by
        rw [countP_range_mul, List.map_congr_left fun p _ => countP_rejected_of_primary p]
    _ = 13872 := by simp [List.range_succ, rejectedBytes_of_one_level, h0, h8, hE, hF]

end Sys2Proof
end

section
/-! The decoder against the table (40_cycle_and_dispatch R104; 30_encoding R78): a word that decodes has exactly one row,
and an illegal word has none. -/

namespace Sys2Proof

/-! ### The fields of a masked word -/

theorem fieldP_and (w m : Word) : fieldP (w &&& m) = fieldP w &&& fieldP m := BitVec.extractLsb'_and

theorem fieldN_and (w m : Word) : fieldN (w &&& m) = fieldN w &&& fieldN m := BitVec.extractLsb'_and

theorem fieldKk_and (w m : Word) : fieldKk (w &&& m) = fieldKk w &&& fieldKk m := BitVec.extractLsb'_and

/-! ### Illegal words have no row (R75, R80) -/

/-- Every row fixes the primary code, and the secondary key where its primary has one. -/
theorem table_masks_keys : ∀ r ∈ opcodeTable, fieldP r.mask = 0xF ∧ (fieldP r.pattern = 0x8 → fieldN r.mask = 0xF) ∧
    (fieldP r.pattern ∈ [0x0, 0xE, 0xF] → fieldKk r.mask = 0xFF) := by decide

theorem table_patterns_decode : ∀ r ∈ opcodeTable, rejected r.pattern = false := by decide

/-- A word for which a row holds has the keys of the row's pattern, so it is illegal only if the pattern is. -/
theorem illegalWord_pattern {r : OpcodeRow} {w : Word} (hr : r ∈ opcodeTable) (hw : r.holds w = true)
    (hill : IllegalWord w) : IllegalWord r.pattern := by
  obtain ⟨hP, hN, hKk⟩ := table_masks_keys r hr
  have hpattern : w &&& r.mask = r.pattern := beq_iff_eq.1 hw
  have hp : fieldP r.pattern = fieldP w := by rw [← hpattern, fieldP_and, hP]; exact BitVec.and_allOnes
  have hn (h8 : fieldP w = 0x8) : fieldN r.pattern = fieldN w := by
    rw [← hpattern, fieldN_and, hN (hp.trans h8)]; exact BitVec.and_allOnes
  have hk (hmem : fieldP w ∈ [0x0, 0xE, 0xF]) : fieldKk r.pattern = fieldKk w := by
    rw [← hpattern, fieldKk_and, hKk (hp ▸ hmem)]; exact BitVec.and_allOnes
  rw [IllegalWord, hp]
  obtain ⟨h, hkey⟩ | ⟨h, hkey⟩ | ⟨h, hkey⟩ | ⟨h, hkey⟩ := hill
  · exact .inl ⟨h, by rwa [hk (by simp [h])]⟩
  · exact .inr (.inl ⟨h, by rwa [hn h]⟩)
  · exact .inr (.inr (.inl ⟨h, by rwa [hk (by simp [h])]⟩))
  · exact .inr (.inr (.inr ⟨h, by rwa [hk (by simp [h])]⟩))

theorem find?_eq_none_of_illegal {w : Word} (hill : IllegalWord w) :
    opcodeTable.find? (fun r => r.holds w) = none := by
  refine List.find?_eq_none.2 fun r hr hw => ?_
  have hrejected : rejected r.pattern = true := (rejected_iff _).2 (illegalWord_pattern hr hw hill)
  rw [table_patterns_decode r hr] at hrejected
  cases hrejected

/-- The rows are disjoint, so the first row that holds is any row that does. -/
theorem find?_eq_some_of_holds {r : OpcodeRow} {w : Word} (hr : r ∈ opcodeTable) (hw : r.holds w = true) :
    opcodeTable.find? (fun r => r.holds w) = some r := by
  obtain ⟨before, after, htable⟩ := List.append_of_mem hr
  have hdisjoint := atMostOneRowHolds.2
  rw [htable] at hdisjoint
  obtain ⟨-, -, hbefore⟩ := List.pairwise_append.1 hdisjoint
  refine List.find?_eq_some_iff_append.2 ⟨hw, before, after, htable, fun q hq => ?_⟩
  have hnot : ¬ q.holds w = true := fun hq' => hbefore q hq r List.mem_cons_self w ⟨hq', hw⟩
  simpa using hnot

/-- Settles O2: a word decodes by a row that holds, which is then the first one, or is illegal and has no row. -/
theorem decoderIsTheMaskMatchTable : Obligations.DecoderIsTheMaskMatchTable := by
  intro w
  obtain ⟨r, hr, hw, hread⟩ | hill := decodeWord_cases w
  · rw [hread, find?_eq_some_of_holds hr hw]; rfl
  · rw [decodeWord_of_illegal hill, find?_eq_none_of_illegal hill]; rfl

end Sys2Proof
end

section
/-! What one step does for each kind of event (40_cycle_and_dispatch R100 to R113; 60_exceptions R227). -/

namespace Sys2Proof.Machine

/-! ### The step, one equation for each pending event (00_scope R8) -/

theorem step_of_reset {s : State} {image : List Byte} {rest : List HostEvent} (h : s.pending = .reset image :: rest) :
    step s = resetEvent image { s with pending := rest } := by
  rw [step, nextEvent, h]

theorem step_of_cycle {s : State} {keys : KeySet} {draw : Byte} {rest : List HostEvent}
    (h : s.pending = .cycle keys draw :: rest) : step s = cycleEvent keys draw { s with pending := rest } := by
  rw [step, nextEvent, h]

theorem step_of_tick {s : State} {rest : List HostEvent} (h : s.pending = .tick :: rest) :
    step s = tickEvent { s with pending := rest } := by
  rw [step, nextEvent, h]

theorem step_of_unscripted {s : State} (h : s.pending = []) : step s = freeEvent s := by
  rw [step, nextEvent, h]

/-! ### Running and faulted machines (R113, R227) -/

theorem whenRunning_of_running {s : State} (h : s.status = .running)
    (event : State → Host.Outcome State Fault Refusal) : whenRunning s event = event s := by
  rw [whenRunning, h]

theorem whenRunning_of_faulted {s : State} {f : Fault} (h : s.status = .faulted f)
    (event : State → Host.Outcome State Fault Refusal) : whenRunning s event = .fault f := by
  rw [whenRunning, h]

theorem resetEvent_of_fits {image : List Byte} (h : image.length ≤ Config.maxImage) (s : State) :
    resetEvent image s = .next { State.ofImage image with pending := s.pending, freeIdx := s.freeIdx } := by
  rw [resetEvent, (State.ofImage_status image).trans (if_pos h)]

/-- Settles O13: every event but a Reset asks for a running machine. -/
theorem faultedMachineOnlyResets : Obligations.FaultedMachineOnlyResets := by
  intro s f hf
  refine ⟨?_, fun image rest hp hfits => ?_⟩
  · rintro (hp | ⟨keys, draw, rest, hp⟩ | ⟨rest, hp⟩)
    · rw [step_of_unscripted hp]
      exact congrArg (thenTicks _) (whenRunning_of_faulted (s := { s with freeIdx := s.freeIdx + 1 }) hf _)
    · rw [step_of_cycle hp]
      exact whenRunning_of_faulted (s := { s with pending := rest }) hf _
    · rw [step_of_tick hp]
      exact whenRunning_of_faulted (s := { s with pending := rest }) hf _
  · exact ⟨_, (step_of_reset hp).trans (resetEvent_of_fits hfits _), (State.ofImage_status image).trans (if_pos hfits)⟩

/-! ### The cycle (R100, R102) -/

theorem decodeWord_wordOfBytes_of_decode {b c : Byte} {i : Instr} {rest : List Byte}
    (h : decode [b, c] = .ok (i, rest)) : decodeWord (wordOfBytes b c) = .ok i := by
  rw [decode] at h
  cases hd : decodeWord (wordOfBytes b c) with
  | ok j => rw [hd] at h; cases h; rfl
  | error e => rw [hd] at h; cases h

theorem cycleEvent_of_decodes {s : State} {i : Instr} (hs : s.status = .running)
    (hi : decodeWord s.fetchWord = .ok i) (keys : KeySet) (draw : Byte) :
    cycleEvent keys draw s = exec i { s with keys := keys, draw := draw, pc := s.pc + 2 } := by
  rw [cycleEvent, whenRunning_of_running hs, runCycle, hi]

/-- Settles O10: the two bytes are those of the fetched word. -/
theorem stepRunsTheDecodedInstruction : Obligations.StepRunsTheDecodedInstruction := by
  intro s keys draw rest i hs hp hd
  have hi : decodeWord s.fetchWord = .ok i := decodeWord_wordOfBytes_of_decode hd
  rw [step_of_cycle hp]
  exact cycleEvent_of_decodes (s := { s with pending := rest }) hs hi keys draw

/-- The ticks after a cycle, as single ticks. -/
theorem thenTicks_eq_onNext (k : Nat) (o : Host.Outcome State Fault Refusal) :
    thenTicks k o = onNext (State.tick^[k]) o := by
  cases o with
  | next t => exact congrArg Host.Outcome.next (t.ticks_eq_iterate k)
  | fault f => rfl
  | refused r => rfl

/-- Settles O11: the cycle of O10 on the free inputs, then ticks. -/
theorem unscriptedStepRunsTheDecodedInstruction : Obligations.UnscriptedStepRunsTheDecodedInstruction := by
  intro s i hs hp hd
  have hi : decodeWord s.fetchWord = .ok i := decodeWord_wordOfBytes_of_decode hd
  rw [step_of_unscripted hp, freeEvent, thenTicks_eq_onNext]
  exact congrArg (onNext _) (cycleEvent_of_decodes (s := { s with freeIdx := s.freeIdx + 1 }) hs hi _ _)

/-! ### The tick (R110) -/

theorem countDown_toNat (t : Byte) (k : Nat) : (countDown t k).toNat = t.toNat - k :=
  (BitVec.toNat_ofNat _ _).trans (Nat.mod_eq_of_lt ((Nat.sub_le _ _).trans_lt t.isLt))

/-- One more tick is one tick before the others. -/
theorem State.ticks_tick (s : State) (k : Nat) : s.tick.ticks k = s.ticks (k + 1) := by
  rw [State.ticks_eq_iterate, State.ticks_eq_iterate, Function.iterate_succ_apply]

theorem step_of_tick_running {s : State} {rest : List HostEvent} (hs : s.status = .running)
    (hp : s.pending = .tick :: rest) : step s = .next { s.tick with pending := rest } := by
  rw [step_of_tick hp]
  exact whenRunning_of_running (s := { s with pending := rest }) hs _

/-- The run of a machine that steps is the run of its next state. -/
theorem run_succ_of_step {M : Host.Core} {s t : M.State} (h : M.step s = .next t) (k : Nat) :
    M.run (k + 1) s = M.run k t := by
  rw [Host.Core.run, h]

/-- Pending ticks are consumed one by one and together make `k` ticks in a row. -/
theorem run_ticks {s : State} {k : Nat} {rest : List HostEvent} (hs : s.status = .running)
    (hp : s.pending = List.replicate k .tick ++ rest) :
    Host.Core.run core k s = .next { s.ticks k with pending := rest } := by
  induction k generalizing s with
  | zero =>
    have hs0 : { s.ticks 0 with pending := rest } = s := by
      rw [← show s.pending = rest from hp, State.ticks_eq_iterate]; rfl
    rw [hs0]; rfl
  | succ k ih =>
    have hstep : step s = .next { s.tick with pending := List.replicate k .tick ++ rest } :=
      step_of_tick_running hs hp
    calc Host.Core.run core (k + 1) s
        = Host.Core.run core k { s.tick with pending := List.replicate k .tick ++ rest } :=
          run_succ_of_step (M := core) hstep k
      _ = .next { s.tick.ticks k with pending := rest } :=
          ih (s := { s.tick with pending := List.replicate k .tick ++ rest }) hs rfl
      _ = .next { s.ticks (k + 1) with pending := rest } := by rw [State.ticks_tick]

/-- Settles O50: `k` pending ticks make `k` ticks in a row, and a Tick that answers a state had a running machine. -/
theorem ticksCountDownBothTimers : Obligations.TicksCountDownBothTimers :=
  ⟨fun k _ s hs hp => ⟨_, run_ticks hs hp, countDown_toNat s.dt k, countDown_toNat s.st k, rfl⟩,
    fun _ _ _ hs hp h => hs (whenRunning_next ((step_of_tick hp).symm.trans h)).1⟩

end Sys2Proof.Machine
end

section
/-! Control flow (41_control_flow): jumps and skips, one CALL, one RET, and nested calls that return. -/

namespace Sys2Proof.Machine

/-! ### Jumps (R121, R127) -/

theorem zextAddr_eq_ofNat (nnn : BitVec 12) : zextAddr nnn = BitVec.ofNat 16 nnn.toNat :=
  (BitVec.ofNat_toNat 16 nnn).symm

theorem zextAddr_toNat (nnn : BitVec 12) : (zextAddr nnn).toNat = nnn.toNat :=
  BitVec.toNat_setWidth_of_le (by decide)

theorem exec_jp (nnn : BitVec 12) (s : State) : exec (.jp nnn) s = .next (s.setPc (zextAddr nnn)) := rfl

theorem exec_jpV0 (nnn : BitVec 12) (s : State) :
    exec (.jpV0 nnn) s = .next (s.setPc (zextAddr nnn + (s.reg 0).setWidth 16)) := rfl

/-- Settles O24: the widened target is the number `nnn` as a 16-bit word, and the sum of JP V0 is taken in 16 bits. -/
theorem jumpsGoToTheirTarget : Obligations.JumpsGoToTheirTarget := by
  refine ⟨fun nnn s => ?_, fun nnn s => ?_⟩
  · rw [exec_jp, zextAddr_eq_ofNat]; rfl
  · rw [exec_jpV0, zextAddr_eq_ofNat, ← BitVec.ofNat_toNat 16 (s.reg 0), ← BitVec.ofNat_add]; rfl

/-! ### Skips (R123 to R126) -/

/-- The skip of SE: the values compared are equal as numbers. -/
theorem State.skipIf_beq (s : State) (a b : Byte) :
    s.skipIf (a == b) = { s with pc := if a.toNat = b.toNat then s.pc + 2 else s.pc } := by
  simp only [State.skipIf, State.setPc, beq_iff_eq, BitVec.toNat_inj]

/-- The skip of SNE: the values compared differ as numbers. -/
theorem State.skipIf_bne (s : State) (a b : Byte) :
    s.skipIf (a != b) = { s with pc := if a.toNat = b.toNat then s.pc else s.pc + 2 } := by
  simp only [State.skipIf, State.setPc, bne_iff_ne, ne_eq, ite_not, BitVec.toNat_inj]

/-- Settles O28: SE skips on `==` and SNE on `!=`, in the immediate and the register form alike. -/
theorem registerSkips : Obligations.RegisterSkips := fun x y kk s =>
  ⟨congrArg _ (s.skipIf_beq (s.reg x) kk), congrArg _ (s.skipIf_bne (s.reg x) kk),
    congrArg _ (s.skipIf_beq (s.reg x) (s.reg y)), congrArg _ (s.skipIf_bne (s.reg x) (s.reg y))⟩

/-! ### One CALL, one RET (R120, R122) -/

/-- Settles O25: by the two cases of the push. -/
theorem callPushesTheReturnAddress : Obligations.CallPushesTheReturnAddress := by
  intro nnn s
  rw [exec_call]
  refine ⟨fun hsp => ?_, pushAndJump_of_full _⟩
  have hroom : s.sp.val < 64 := by omega
  refine ⟨_, pushAndJump_of_room _ hroom, zextAddr_toNat nnn, rfl, fun k hk => ?_, rfl⟩
  simp only [Vector.getElem_set, eq_comm]

/-- Settles O26: by the two cases of the pop. -/
theorem retGoesToTheLastPushed : Obligations.RetGoesToTheLastPushed := by
  intro s
  rw [exec_ret]
  refine ⟨fun hsp => ⟨_, popToPc_of_nonempty hsp, Nat.succ_pred hsp, fun k _ hk => ?_, rfl⟩, popToPc_of_empty⟩
  simp only [← hk, Nat.add_sub_cancel]

/-! ### Nested calls (R120, R122; S5 of 95_test_vectors) -/

theorem execAll_cons_of_next {i : Instr} {s t : State} (h : exec i s = .next t) (is : List Instr) :
    execAll (i :: is) s = execAll is t := by
  rw [execAll, h]

theorem execAll_singleton (i : Instr) (s : State) : execAll [i] s = exec i s := by
  rw [execAll]
  cases exec i s <;> rfl

theorem execAll_append_of_next {is : List Instr} {s t : State} (h : execAll is s = .next t) (js : List Instr) :
    execAll (is ++ js) s = execAll js t := by
  induction is generalizing s with
  | nil => cases h; rfl
  | cons i is ih =>
    rw [execAll] at h
    cases hi : exec i s with
    | next u => rw [hi] at h; rw [List.cons_append, execAll_cons_of_next hi]; exact ih h
    | fault f => rw [hi] at h; cases h
    | refused r => rw [hi] at h; cases h

/-- The CALLs to the targets in order, then as many RETs. -/
def callsThenRets (targets : List (BitVec 12)) : List Instr :=
  targets.map .call ++ List.replicate targets.length .ret

/-- The first CALL and the last RET enclose the nest of the other targets. -/
theorem callsThenRets_cons (nnn : BitVec 12) (targets : List (BitVec 12)) :
    callsThenRets (nnn :: targets) = .call nnn :: (callsThenRets targets ++ [.ret]) := by
  simp [callsThenRets, List.replicate_succ']

/-- RET one entry above `s`, with the `PC` of `s` in that entry, restores all of `s` but the stack. -/
theorem exec_ret_of_pushed {s : State} (hroom : s.sp.val < 64) {stack : Vector Word 64} (hpc : stack[s.sp.val] = s.pc)
    (target : Word) :
    exec .ret { s with stack := stack, sp := ⟨s.sp.val + 1, Nat.succ_lt_succ hroom⟩, pc := target } =
      .next { s with stack := stack } := by
  rw [exec_ret, popToPc_of_nonempty (Nat.succ_ne_zero _)]
  simp only [Nat.add_sub_cancel, hpc]

/-- A nest of calls leaves everything as it was but the entries from `SP` up. The return address of the outermost CALL
lies below the `SP` of the nest inside it, so it is still there at the last RET. -/
theorem execAll_callsThenRets (targets : List (BitVec 12)) {s : State} (h : s.sp.val + targets.length ≤ 64) :
    ∃ stack : Vector Word 64, execAll (callsThenRets targets) s = .next { s with stack := stack } ∧
      ∀ k (_ : k < 64), k < s.sp.val → stack[k] = s.stack[k] := by
  induction targets generalizing s with
  | nil => exact ⟨s.stack, rfl, fun _ _ _ => rfl⟩
  | cons nnn targets ih =>
    rw [List.length_cons] at h
    have hroom : s.sp.val < 64 := by omega
    have hcall := (exec_call nnn s).trans (pushAndJump_of_room (zextAddr nnn) hroom)
    obtain ⟨stack, hinner, hbelow⟩ := ih (s := { s with
      stack := s.stack.set s.sp.val s.pc hroom
      sp := ⟨s.sp.val + 1, Nat.succ_lt_succ hroom⟩
      pc := zextAddr nnn }) (by simp only; omega)
    have hpc : stack[s.sp.val] = s.pc :=
      (hbelow s.sp.val hroom (Nat.lt_succ_self _)).trans (Vector.getElem_set_self hroom)
    refine ⟨stack, ?_, fun k hk hlt => ?_⟩
    · rw [callsThenRets_cons, execAll_cons_of_next hcall, execAll_append_of_next hinner, execAll_singleton]
      exact exec_ret_of_pushed hroom hpc (zextAddr nnn)
    · exact (hbelow k hk (Nat.lt_succ_of_lt hlt)).trans (Vector.getElem_set_ne hroom hk hlt.ne')

/-- Settles O27: the state that the nest of calls leaves differs from the first in the stack alone. -/
theorem nestedCallsReturn : Obligations.NestedCallsReturn := by
  intro targets s h
  obtain ⟨stack, hrun, hbelow⟩ := execAll_callsThenRets targets h
  exact ⟨_, hrun, rfl, rfl, hbelow, rfl⟩

end Sys2Proof.Machine
end

section
/-! The register file and the ALU (42_register_alu): what an instruction leaves in its destination, in VF and in every
other register. -/

namespace Sys2Proof

/-! ### A word decodes by the row that holds (R78, R104) -/

theorem decodeWord_of_holds {r : OpcodeRow} {w : Word} (hr : r ∈ opcodeTable) (hw : r.holds w = true) :
    decodeWord w = .ok (r.read w) := by
  have hfirst := find?_eq_some_of_holds hr hw
  obtain ⟨q, hq, hqw, hread⟩ | hill := decodeWord_cases w
  · rw [hread, Option.some.inj ((find?_eq_some_of_holds hq hqw).symm.trans hfirst)]
  · rw [find?_eq_none_of_illegal hill] at hfirst
    cases hfirst

theorem decodeWord_ldImm {w : Word} (h : w &&& 0xF000 = 0x6000) :
    decodeWord w = .ok (.ldImm (fieldX w) (fieldKk w)) :=
  decodeWord_of_holds (mem_table 7 rfl) (beq_iff_eq.2 h)

theorem decodeWord_addImm {w : Word} (h : w &&& 0xF000 = 0x7000) :
    decodeWord w = .ok (.addImm (fieldX w) (fieldKk w)) :=
  decodeWord_of_holds (mem_table 8 rfl) (beq_iff_eq.2 h)

end Sys2Proof

namespace Sys2Proof.Machine

/-! ### The registers written -/

theorem State.setReg_reg_self (s : State) (x : RegNum) (b : Byte) : (s.setReg x b).reg x = b :=
  (s.setReg_reg x x b).trans (if_pos rfl)

theorem State.setReg_reg_of_ne (s : State) {x r : RegNum} (h : r ≠ x) (b : Byte) : (s.setReg x b).reg r = s.reg r :=
  (s.setReg_reg x r b).trans (if_neg h)

/-- What an instruction that writes one register does. -/
theorem exec_setReg {i : Instr} {s : State} {x : RegNum} {b : Byte} (h : exec i s = .next (s.setReg x b)) :
    ∃ t, exec i s = .next t ∧ t.reg x = b ∧ (∀ r, r ≠ x → t.reg r = s.reg r) ∧ t = { s with v := t.v } :=
  ⟨_, h, s.setReg_reg_self x b, fun _ hr => s.setReg_reg_of_ne hr b, rfl⟩

/-- What an instruction that writes two registers does: the later write stands (R105, D8). -/
theorem exec_setReg_setReg {i : Instr} {s : State} {x y : RegNum} {b c : Byte}
    (h : exec i s = .next ((s.setReg x b).setReg y c)) :
    ∃ t, exec i s = .next t ∧ t.reg y = c ∧ (x ≠ y → t.reg x = b) ∧
      (∀ r, r ≠ x → r ≠ y → t.reg r = s.reg r) ∧ t = { s with v := t.v } := by
  refine ⟨_, h, State.setReg_reg_self _ y c, fun hxy => ?_, fun r hx hy => ?_, rfl⟩
  · rw [State.setReg_reg_of_ne _ hxy, State.setReg_reg_self]
  · rw [State.setReg_reg_of_ne _ hy, State.setReg_reg_of_ne _ hx]

/-- The flag, then the result, as SUB, SUBN, SHR and SHL write them (R148 to R151). -/
theorem exec_setFlag_setReg {i : Instr} {s : State} {x : RegNum} {b : Byte} {f : Bool}
    (h : exec i s = .next ((s.setFlag f).setReg x b)) :
    ∃ t, exec i s = .next t ∧ t.reg x = b ∧ (x ≠ 15 → t.reg 15 = flagByte f) ∧
      (∀ r, r ≠ x → r ≠ 15 → t.reg r = s.reg r) ∧ t = { s with v := t.v } := by
  obtain ⟨t, ht, hx, hflag, hothers, hframe⟩ := exec_setReg_setReg h
  exact ⟨t, ht, hx, fun h15 => hflag h15.symm, fun r hr h15 => hothers r h15 hr, hframe⟩

/-! ### What each instruction answers -/

theorem exec_ldImm (x : RegNum) (kk : Byte) (s : State) : exec (.ldImm x kk) s = .next (s.setReg x kk) := rfl

theorem exec_addImm (x : RegNum) (kk : Byte) (s : State) :
    exec (.addImm x kk) s = .next (s.setReg x (s.reg x + kk)) := rfl

theorem exec_ldReg (x y : RegNum) (s : State) : exec (.ldReg x y) s = .next (s.setReg x (s.reg y)) := rfl

theorem exec_orReg (x y : RegNum) (s : State) : exec (.orReg x y) s = .next (s.setReg x (s.reg x ||| s.reg y)) := rfl

theorem exec_andReg (x y : RegNum) (s : State) : exec (.andReg x y) s = .next (s.setReg x (s.reg x &&& s.reg y)) := rfl

theorem exec_xorReg (x y : RegNum) (s : State) : exec (.xorReg x y) s = .next (s.setReg x (s.reg x ^^^ s.reg y)) := rfl

theorem exec_addReg (x y : RegNum) (s : State) : exec (.addReg x y) s =
    .next ((s.setReg x (s.reg x + s.reg y)).setFlag (carry (s.reg x) (s.reg y))) := rfl

theorem exec_subReg (x y : RegNum) (s : State) : exec (.subReg x y) s =
    .next ((s.setFlag (noBorrow (s.reg x) (s.reg y))).setReg x (s.reg x - s.reg y)) := rfl

theorem exec_subnReg (x y : RegNum) (s : State) : exec (.subnReg x y) s =
    .next ((s.setFlag (noBorrow (s.reg y) (s.reg x))).setReg x (s.reg y - s.reg x)) := rfl

theorem exec_shr (x : RegNum) (s : State) : exec (.shr x) s =
    .next ((s.setFlag (lowBit (s.reg x))).setReg x (s.reg x >>> 1)) := rfl

theorem exec_shl (x : RegNum) (s : State) : exec (.shl x) s =
    .next ((s.setFlag (highBit (s.reg x))).setReg x (s.reg x <<< 1)) := rfl

theorem exec_rnd (x : RegNum) (kk : Byte) (s : State) : exec (.rnd x kk) s = .next (s.setReg x (s.draw &&& kk)) := rfl

/-! ### The flags and the results as numbers (R146 to R151) -/

theorem flagByte_toNat (f : Bool) : (flagByte f).toNat = f.toNat := by cases f <;> rfl

theorem flagByte_decide_toNat (p : Prop) [Decidable p] : (flagByte (decide p)).toNat = if p then 1 else 0 := by
  by_cases h : p <;> simp [flagByte, h]

theorem flagByte_carry_toNat (a b : Byte) :
    (flagByte (carry a b)).toNat = if a.toNat + b.toNat > 255 then 1 else 0 := flagByte_decide_toNat _

theorem flagByte_noBorrow_toNat (a b : Byte) :
    (flagByte (noBorrow a b)).toNat = if a.toNat > b.toNat then 1 else 0 := flagByte_decide_toNat _

theorem flagByte_lowBit_toNat (a : Byte) : (flagByte (lowBit a)).toNat = a.toNat % 2 := by
  rw [flagByte_toNat, lowBit, BitVec.getLsbD, Nat.toNat_testBit, Nat.pow_zero, Nat.div_one]

theorem flagByte_highBit_toNat (a : Byte) : (flagByte (highBit a)).toNat = a.toNat / 128 := by
  rw [flagByte_toNat, highBit, BitVec.getLsbD, Nat.toNat_testBit]
  omega

/-- The 8-bit difference is the difference of the values modulo 256. -/
theorem toNat_sub_byte (a b : Byte) : ((a - b).toNat : Int) = (a.toNat - b.toNat : Int) % 256 := by
  rw [BitVec.toNat_sub]
  omega

theorem toNat_shiftRight_one_byte (a : Byte) : (a >>> 1).toNat = a.toNat / 2 := by
  rw [BitVec.toNat_ushiftRight, Nat.shiftRight_eq_div_pow]

theorem toNat_shiftLeft_one_byte (a : Byte) : (a <<< 1).toNat = a.toNat * 2 % 256 := by
  rw [BitVec.toNat_shiftLeft, Nat.shiftLeft_eq]

/-! ### One register written, no flag (R140 to R145, R152) -/

/-- Settles O29: the row of primary 0x6, and a write of one register. -/
theorem loadImmediate : Obligations.LoadImmediate :=
  ⟨fun _ => decodeWord_ldImm, fun x kk s => exec_setReg (exec_ldImm x kk s),
    fun s => ⟨decodeWord_ldImm rfl, _, exec_ldImm 3 0x41 s, s.setReg_reg_self 3 0x41⟩⟩

/-- ADD Vx, kk of a known register value. -/
theorem exec_addImm_of_reg {x : RegNum} {b : Byte} {s : State} (h : s.reg x = b) (kk : Byte) :
    ∃ t, exec (.addImm x kk) s = .next t ∧ t.reg x = b + kk ∧ (∀ r, r ≠ x → t.reg r = s.reg r) ∧
      t = { s with v := t.v } :=
  h ▸ exec_setReg (exec_addImm x kk s)

/-- Settles O30: the row of primary 0x7, and a write of one register; VF is one of the others where `x` is 0. -/
theorem addImmediate : Obligations.AddImmediate := by
  refine ⟨fun _ => decodeWord_addImm, fun x kk s => ?_, fun s h => ?_, fun s h => ?_, fun s h => ?_⟩
  · obtain ⟨t, ht, hx, hframe⟩ := exec_setReg (exec_addImm x kk s)
    exact ⟨t, ht, by rw [hx, BitVec.toNat_add], hframe⟩
  · obtain ⟨t, ht, hx, -⟩ := exec_addImm_of_reg h 0x01
    exact ⟨decodeWord_addImm rfl, t, ht, hx⟩
  · obtain ⟨t, ht, hx, hothers, -⟩ := exec_addImm_of_reg h 0xFF
    exact ⟨decodeWord_addImm rfl, t, ht, hx, hothers 15 (by decide)⟩
  · obtain ⟨t, ht, hx, -⟩ := exec_addImm_of_reg h 0xFF
    exact ⟨t, ht, hx⟩

/-- Settles O31: four writes of one register, the last three read bit by bit. -/
theorem copyAndBitwise : Obligations.CopyAndBitwise := by
  intro x y s
  refine ⟨exec_setReg (exec_ldReg x y s), ?_, ?_, ?_⟩
  · obtain ⟨t, ht, hx, hframe⟩ := exec_setReg (exec_orReg x y s)
    exact ⟨t, ht, fun k => by rw [hx, BitVec.getLsbD_or], hframe⟩
  · obtain ⟨t, ht, hx, hframe⟩ := exec_setReg (exec_andReg x y s)
    exact ⟨t, ht, fun k => by rw [hx, BitVec.getLsbD_and], hframe⟩
  · obtain ⟨t, ht, hx, hframe⟩ := exec_setReg (exec_xorReg x y s)
    exact ⟨t, ht, fun k => by rw [hx, BitVec.getLsbD_xor], hframe⟩

/-- Settles O35: a write of one register with the masked draw. -/
theorem randomMasksTheDraw : Obligations.RandomMasksTheDraw := by
  intro x kk s
  obtain ⟨t, ht, hx, hframe⟩ := exec_setReg (exec_rnd x kk s)
  exact ⟨t, ht, fun k => by rw [hx, BitVec.getLsbD_and], hframe⟩

/-! ### A result and a flag (R147 to R151) -/

/-- Settles O32: the sum, then the carry. -/
theorem addSetsTheCarry : Obligations.AddSetsTheCarry := by
  intro x y s
  obtain ⟨t, ht, hflag, hx, hframe⟩ := exec_setReg_setReg (exec_addReg x y s)
  refine ⟨t, ht, ?_, fun h15 => ?_, hframe⟩
  · rw [hflag, flagByte_carry_toNat]
  · rw [hx h15, BitVec.toNat_add]

/-- Settles O33: the strict comparison, then the difference, of the same two values in either order. -/
theorem subtractsSetTheFlag : Obligations.SubtractsSetTheFlag := by
  intro x y s
  constructor
  · obtain ⟨t, ht, hx, hflag, hframe⟩ := exec_setFlag_setReg (exec_subReg x y s)
    refine ⟨t, ht, ?_, fun h15 => ?_, hframe⟩
    · rw [hx, toNat_sub_byte]
    · rw [hflag h15, flagByte_noBorrow_toNat]
  · obtain ⟨t, ht, hx, hflag, hframe⟩ := exec_setFlag_setReg (exec_subnReg x y s)
    refine ⟨t, ht, ?_, fun h15 => ?_, hframe⟩
    · rw [hx, toNat_sub_byte]
    · rw [hflag h15, flagByte_noBorrow_toNat]

/-- Settles O34: the bit shifted out, then the shifted value. -/
theorem shiftsSetTheFlag : Obligations.ShiftsSetTheFlag := by
  intro x s
  constructor
  · obtain ⟨t, ht, hx, hflag, hframe⟩ := exec_setFlag_setReg (exec_shr x s)
    refine ⟨t, ht, ?_, fun h15 => ?_, hframe⟩
    · rw [hx, toNat_shiftRight_one_byte]
    · rw [hflag h15, flagByte_lowBit_toNat]
  · obtain ⟨t, ht, hx, hflag, hframe⟩ := exec_setFlag_setReg (exec_shl x s)
    refine ⟨t, ht, ?_, fun h15 => ?_, hframe⟩
    · rw [hx, toNat_shiftLeft_one_byte]
    · rw [hflag h15, flagByte_highBit_toNat]

end Sys2Proof.Machine
end

section
/-! The index register and memory (43_index_memory): the writers of `I`, the two stores from `I` up, the load, and the
glyphs of the font. -/

namespace Sys2Proof.Machine

/-! ### The writers of `I` (R170 to R172) -/

theorem exec_ldI (nnn : BitVec 12) (s : State) : exec (.ldI nnn) s = .next (s.setIndex (zextAddr nnn)) := rfl

theorem exec_addI (x : RegNum) (s : State) :
    exec (.addI x) s = .next (s.setIndex (s.index + (s.reg x).setWidth 16)) := rfl

theorem exec_ldFont (x : RegNum) (s : State) :
    exec (.ldFont x) s = .next (s.setIndex (BitVec.ofNat 16 (0x050 + 5 * (s.reg x).toNat))) := rfl

theorem toNat_add_setWidth_byte (w : Word) (b : Byte) : (w + b.setWidth 16).toNat = (w.toNat + b.toNat) % 65536 := by
  rw [BitVec.toNat_add, BitVec.toNat_setWidth_of_le (by decide)]

/-- The font address of any byte fits in 16 bits. -/
theorem toNat_glyphAddr (b : Byte) : (BitVec.ofNat 16 (0x050 + 5 * b.toNat)).toNat = 0x050 + 5 * b.toNat := by
  have hb := b.isLt
  rw [BitVec.toNat_ofNat]
  omega

/-- Settles O36: three updates of `I`, each word read as a number. -/
theorem indexLoads : Obligations.IndexLoads := fun nnn x s =>
  ⟨by rw [exec_ldI, zextAddr_eq_ofNat]; rfl,
    ⟨_, exec_addI x s, toNat_add_setWidth_byte s.index (s.reg x), rfl⟩,
    ⟨_, exec_ldFont x s, toNat_glyphAddr (s.reg x), rfl⟩⟩

/-- Settles O53: row `row` of the glyph of `V[x]` is byte `5 * V[x] + row` of the font, which LD F leaves in place. -/
theorem fontAddressesHoldTheGlyphs : Obligations.FontAddressesHoldTheGlyphs := by
  intro x s hfont hx
  refine ⟨_, exec_ldFont x s, rfl, rfl, fun row hrow => ?_⟩
  rw [State.setIndex_readByte, State.setIndex_index, toNat_glyphAddr, Nat.add_assoc]
  exact hfont _ (by omega)

/-! ### The stores (R173, R174) -/

theorem exec_ldBcd (x : RegNum) (s : State) :
    exec (.ldBcd x) s = .next (s.writeBytes s.index.toNat (bcdDigits (s.reg x))) := rfl

theorem exec_dump (x : RegNum) (s : State) :
    exec (.dump x) s = .next (s.writeBytes s.index.toNat ((regsUpTo x).map s.reg)) := rfl

/-- After LD B the byte at `I + k` is digit k (R173). -/
theorem exec_ldBcd_readByte {x : RegNum} {s t : State} (hm : Memory.wf s.mem) (h : exec (.ldBcd x) s = .next t)
    {k d : Nat} (hd : (bcdDigits (s.reg x))[k]? = some (BitVec.ofNat 8 d)) (hlt : d < 256) :
    (t.readByte (s.index.toNat + k)).toNat = d := by
  cases h
  obtain ⟨hk, hget⟩ := List.getElem?_eq_some_iff.1 hd
  have hread : (s.writeBytes s.index.toNat (bcdDigits (s.reg x))).readByte (s.index.toNat + k) = BitVec.ofNat 8 d :=
    (State.readByte_writeBytes hm (bs := bcdDigits (s.reg x)) (show 3 ≤ Config.memSize by decide) hk).trans hget
  exact (congrArg BitVec.toNat hread).trans (Nat.mod_eq_of_lt hlt)

/-- Settles O37: the bytes stored are the digits, each below 256, and the rest is the frame of an instruction that
stores three bytes. -/
theorem bcdStoresTheDigits : Obligations.BcdStoresTheDigits := by
  intro x s hm
  have h := exec_ldBcd x s
  have hv := (s.reg x).isLt
  exact ⟨_, h, exec_ldBcd_readByte (k := 0) hm h rfl (by omega), exec_ldBcd_readByte (k := 1) hm h rfl (by omega),
    exec_ldBcd_readByte (k := 2) hm h rfl (by omega), fun _ => (exec_effect h).readByte_eq hm, s.writeBytes_eq _ _⟩

/-- Settles O38: the bytes stored are the registers, and the rest is the frame of an instruction that stores `x + 1`
bytes. -/
theorem dumpStoresTheRegisters : Obligations.DumpStoresTheRegisters := by
  intro x s hm
  have h := exec_dump x s
  refine ⟨_, h, fun k hk => exec_dump_readByte hm h hk, fun a ha => ?_, s.writeBytes_eq _ _⟩
  refine (exec_effect h).readByte_eq hm fun k hk => ?_
  have hkx : k ≤ x.val := Nat.le_of_lt_succ hk
  exact ha ⟨k, hkx.trans_lt x.isLt⟩ hkx

/-! ### The load (R175, R176) -/

theorem exec_load (x : RegNum) (s : State) : exec (.load x) s = .next (s.loadRegs (regsUpTo x)) := rfl

/-- Settles O39: the registers named in the list are those up to `x`. -/
theorem loadFillsTheRegisters : Obligations.LoadFillsTheRegisters := by
  intro x s
  refine ⟨_, exec_load x s, fun k => ?_, s.loadRegs_eq _⟩
  simp only [s.loadRegs_reg (regsUpTo x) k, mem_regsUpTo, State.indexAddr]

/-- Settles O40: the dump leaves `I` as it was, so the load reads the bytes that the dump stored. -/
theorem dumpThenLoadRoundTrip : Obligations.DumpThenLoadRoundTrip := by
  intro x s t between hm h
  have hindex : t.index = s.index := (exec_effect h).index_eq rfl
  obtain ⟨u, hu, hregs, -⟩ := loadFillsTheRegisters x { t with v := between }
  refine ⟨u, hu, fun k hk => ?_⟩
  calc u.reg k
      = t.readByte (t.index.toNat + k.val) := (hregs k).trans (if_pos hk)
    _ = t.readByte (s.index.toNat + k.val) := by rw [hindex]
    _ = s.reg k := exec_dump_readByte hm h hk

end Sys2Proof.Machine
end

section
/-! The display (44_display): CLS, and the sprite blitter as one XOR per cell with its collision flag. -/

namespace Sys2Proof.Machine

/-! ### Clear screen (R190) -/

theorem exec_cls (s : State) : exec .cls s = .next (s.setFb blankScreen) := rfl

/-- Settles O44: the framebuffer is replaced by the blank one. -/
theorem clearScreenUnsetsEveryCell : Obligations.ClearScreenUnsetsEveryCell := fun s =>
  ⟨_, exec_cls s, pixel_blankScreen, rfl⟩

/-! ### The sprite as bits on cells (R191) -/

/-- What the blitter leaves for DRW Vx, Vy, n: the framebuffer, and whether a set cell was unset. -/
def State.drawn (s : State) (x y : RegNum) (n : Nat) : Framebuffer × Bool :=
  blitRows ((s.reg x).toNat % 64) ((s.reg y).toNat % 32) (s.spriteRows n) (s.fb, false)

/-- The bit that DRW Vx, Vy, n puts on a cell. -/
def State.drawBit (s : State) (x y : RegNum) (n px py : Nat) : Bool :=
  spriteBit s s.index.toNat n (s.reg x).toNat (s.reg y).toNat px py

theorem exec_drw (x y : RegNum) (n : Nat) (s : State) :
    exec (.drw x y n) s = .next ((s.setFb (s.drawn x y n).1).setFlag (s.drawn x y n).2) := rfl

theorem State.spriteRows_length (s : State) (n : Nat) : (s.spriteRows n).length = n := by
  simp [State.spriteRows]

/-- A bit of a row byte; past the last row of the sprite there is none. -/
theorem State.spriteRows_getLsbD (s : State) (n r k : Nat) :
    ((s.spriteRows n).getD r 0).getLsbD k = (decide (r < n) && (s.readByte (s.index.toNat + r)).getLsbD k) := by
  by_cases hr : r < n
  · simp [State.spriteRows, State.indexAddr, hr]
  · simp [State.spriteRows, hr]

/-- The column offset from an origin reduced modulo the width. -/
theorem columnOf_mod (ox qx : Nat) : columnOf (ox % 64) qx = columnOf ox qx := by
  rw [columnOf, Nat.mod_mod, columnOf]

/-- The row offset from an origin reduced modulo the height. -/
theorem rowOf_mod (oy qy : Nat) : rowOf (oy % 32) qy = rowOf oy qy := by
  rw [rowOf, Nat.mod_mod, rowOf]

theorem rowOf_eq {py qy r : Nat} (hr : r < 32) : rowOf py qy = r ↔ qy % 32 = (py + r) % 32 := by
  simp only [rowOf]; omega

/-- The bit on a cell is bit 7 - c of row byte r, with c and r the offsets of the cell from the origin. -/
theorem State.drawBit_eq (s : State) (x y : RegNum) (n px py : Nat) :
    s.drawBit x y n px py = (decide (columnOf ((s.reg x).toNat % 64) px < 8) &&
      ((s.spriteRows n).getD (rowOf ((s.reg y).toNat % 32) py) 0).getLsbD
        (7 - columnOf ((s.reg x).toNat % 64) px)) := by
  rw [columnOf_mod, rowOf_mod, s.spriteRows_getLsbD, ← Bool.and_assoc]
  rfl

/-! ### What the loops do to a cell, and when they report a collision (R191, R192) -/

theorem State.pixel_drawn (s : State) (x y : RegNum) {n : Nat} (hn : n < 16) (px py : Nat) :
    pixel (s.drawn x y n).1 px py = (pixel s.fb px py ^^ s.drawBit x y n px py) := by
  have hlen : (s.spriteRows n).length ≤ 32 := by rw [s.spriteRows_length]; omega
  rw [s.drawBit_eq]
  exact (blitRows_spec _ _ _ _ hlen).1 px py

/-- The loops find the collisions by offset from the origin; here the cell itself is named. -/
theorem State.drawn_collides (s : State) (x y : RegNum) {n : Nat} (hn : n < 16) :
    (s.drawn x y n).2 = true ↔
      ∃ px < 64, ∃ py < 32, pixel s.fb px py = true ∧ s.drawBit x y n px py = true := by
  have hlen : (s.spriteRows n).length ≤ 32 := by rw [s.spriteRows_length]; omega
  rw [State.drawn, (blitRows_spec _ _ _ _ hlen).2, s.spriteRows_length]
  simp only [s.drawBit_eq]
  generalize (s.reg x).toNat % 64 = ox
  generalize (s.reg y).toNat % 32 = oy
  constructor
  · rintro (h | ⟨r, hr, c, hc, hb, hp⟩)
    · cases h
    · have hcol : columnOf ox ((ox + c) % 64) = c := (columnOf_eq (by omega)).2 (Nat.mod_mod _ _)
      have hrow : rowOf oy ((oy + r) % 32) = r := (rowOf_eq (by omega)).2 (Nat.mod_mod _ _)
      refine ⟨_, Nat.mod_lt (ox + c) (by decide), _, Nat.mod_lt (oy + r) (by decide), ?_, ?_⟩
      · exact (pixel_congr s.fb (Nat.mod_mod _ _) (Nat.mod_mod _ _)).trans hp
      · rw [hcol, hrow, decide_eq_true hc, hb]; rfl
  · rintro ⟨px, -, py, -, hp, hb⟩
    obtain ⟨hc, hb⟩ := Bool.and_eq_true_iff.1 hb
    have hr := (Bool.and_eq_true_iff.1 ((s.spriteRows_getLsbD n _ _).symm.trans hb)).1
    have hx : px % 64 = (ox + columnOf ox px) % 64 := (columnOf_eq (Nat.mod_lt _ (by decide))).1 rfl
    have hy : py % 32 = (oy + rowOf oy py) % 32 := (rowOf_eq (Nat.mod_lt _ (by decide))).1 rfl
    exact .inr ⟨_, of_decide_eq_true hr, _, of_decide_eq_true hc, hb, (pixel_congr s.fb hx hy).symm.trans hp⟩

/-! ### The flag, and the two statements -/

theorem State.setFlag_reg_flag (s : State) (f : Bool) : (s.setFlag f).reg 15 = flagByte f :=
  s.setReg_reg_self 15 (flagByte f)

theorem flagByte_eq_one {f : Bool} : flagByte f = 1 ↔ f = true := by cases f <;> decide

/-- Settles O45: a set cell is unset exactly where the sprite's bit is 1, which is what the blitter reports. -/
theorem drawXorsTheSprite : Obligations.DrawXorsTheSprite := by
  intro x y n s hn
  have hpix := s.pixel_drawn x y hn
  refine ⟨_, exec_drw x y n s, fun px _ py _ => hpix px py, ?_, fun r hr => State.setReg_reg_of_ne _ hr _, rfl⟩
  rw [State.setFlag_reg_flag]
  simp only [State.setFlag_fb, State.setFb_fb]
  have hcollides := s.drawn_collides x y hn
  cases hflag : (s.drawn x y n).2 with
  | true =>
    obtain ⟨px, hx, py, hy, hset, hbit⟩ := hcollides.1 hflag
    exact .inl ⟨rfl, px, hx, py, hy, hset, by rw [hpix, hset, hbit]; rfl⟩
  | false =>
    refine .inr ⟨rfl, fun px hx py hy hset => ?_⟩
    have hbit : s.drawBit x y n px py = false := Bool.eq_false_iff.2 fun hbit =>
      Bool.false_ne_true (hflag.symm.trans (hcollides.2 ⟨px, hx, py, hy, hset, hbit⟩))
    rw [hpix, hset, hbit]; rfl

/-- Settles O46: the second draw puts the same bits on the cells, so each is XORed twice, and under a set bit the first
draw leaves a cell set exactly when it was unset before. -/
theorem drawTwiceRestores : Obligations.DrawTwiceRestores := by
  intro x y n s t hn h
  cases h
  have hpix := s.pixel_drawn x y hn
  have hbits : ∀ px py, (s.setFb (s.drawn x y n).1).drawBit x y n px py = s.drawBit x y n px py := fun _ _ => rfl
  refine ⟨_, exec_drw x y n (s.setFb (s.drawn x y n).1), framebuffer_ext fun px _ py _ => ?_, ?_⟩
  · rw [State.setFlag_fb, State.setFb_fb, State.pixel_drawn _ x y hn, hbits, State.setFb_fb, hpix, Bool.xor_assoc,
      Bool.xor_self, Bool.xor_false]
  · rw [State.setFlag_reg_flag, flagByte_eq_one, State.drawn_collides _ x y hn]
    have hcell : ∀ px py, pixel (s.drawn x y n).1 px py = true ∧ s.drawBit x y n px py = true ↔
        pixel s.fb px py = false ∧ s.drawBit x y n px py = true := fun px py =>
      and_congr_left fun hbit => by rw [hpix, hbit, Bool.xor_true, Bool.not_eq_true']
    exact exists_congr fun px => and_congr_right fun _ => exists_congr fun py => and_congr_right fun _ => hcell px py

end Sys2Proof.Machine
end

section
/-! The keys and the timers (45_keys_timers): the skips on a key, the wait for a key, and the timer copies. -/

namespace Sys2Proof.Machine

/-! ### What each instruction answers -/

theorem exec_skp (x : RegNum) (s : State) :
    exec (.skp x) s = .next (s.skipIf (keyPressed s.keys (s.reg x))) := rfl

theorem exec_sknp (x : RegNum) (s : State) :
    exec (.sknp x) s = .next (s.skipIf (!keyPressed s.keys (s.reg x))) := rfl

theorem exec_ldVxDt (x : RegNum) (s : State) : exec (.ldVxDt x) s = .next (s.setReg x s.dt) := rfl

theorem exec_ldVxKey (x : RegNum) (s : State) : exec (.ldVxKey x) s = .next (s.waitForKey x) := rfl

theorem exec_ldDtVx (x : RegNum) (s : State) : exec (.ldDtVx x) s = .next (s.setDt (s.reg x)) := rfl

theorem exec_ldStVx (x : RegNum) (s : State) : exec (.ldStVx x) s = .next (s.setSt (s.reg x)) := rfl

/-! ### Wait for a key (R203) -/

theorem State.waitForKey_of_none {s : State} (h : s.keys = 0) (x : RegNum) : s.waitForKey x = s.setPc (s.pc - 2) := by
  rw [State.waitForKey, lowestKey_eq_none.2 h]

theorem State.waitForKey_of_some {s : State} {k : Fin 16} (h : lowestKey s.keys = some k) (x : RegNum) :
    s.waitForKey x = s.setReg x (BitVec.ofNat 8 k.val) := by
  rw [State.waitForKey, h]

/-- A key number fits a register. -/
theorem toNat_ofNat_key (k : Fin 16) : (BitVec.ofNat 8 k.val).toNat = k.val :=
  Nat.mod_eq_of_lt (k.isLt.trans (by decide))

/-- Settles O48: with a key pressed the search finds the lowest one, and the rest is a write of one register. -/
theorem waitForKey : Obligations.WaitForKey := by
  refine fun x s => ⟨fun hnone => ?_, fun hsome => ?_⟩
  · rw [exec_ldVxKey, State.waitForKey_of_none hnone, State.setPc]
  · obtain ⟨k, hk⟩ := Option.ne_none_iff_exists'.1 (mt lowestKey_eq_none.1 hsome)
    obtain ⟨hpressed, hlowest⟩ := lowestKey_eq_some hk
    have hexec := (exec_ldVxKey x s).trans (congrArg Host.Outcome.next (State.waitForKey_of_some hk x))
    obtain ⟨t, ht, hx, hframe⟩ := exec_setReg hexec
    exact ⟨k, t, ht, hpressed, hlowest, (congrArg BitVec.toNat hx).trans (toNat_ofNat_key k), hframe⟩

/-! ### The skips on a key (R200, R201) -/

/-- A value above 15 names no key, so it is not pressed (D12). -/
theorem keyPressed_eq_true {keys : KeySet} {vx : Byte} :
    keyPressed keys vx = true ↔ vx.toNat ≤ 15 ∧ keys.getLsbD vx.toNat = true := by
  rw [keyPressed, Bool.and_eq_true, decide_eq_true_iff]

/-- Settles O47: both skip on the same test, SKNP with its branches exchanged. -/
theorem keySkips : Obligations.KeySkips := by
  intro x s
  constructor
  · rw [exec_skp]
    simp only [State.skipIf, State.setPc, keyPressed_eq_true]
  · rw [exec_sknp]
    simp only [State.skipIf, State.setPc, Bool.not_eq_true', ← Bool.not_eq_true, ite_not, keyPressed_eq_true]

/-! ### The timer copies (R202, R204, R205) -/

/-- Settles O49: a write of one register, and the two writes of a timer. -/
theorem timerTransfers : Obligations.TimerTransfers := fun x s =>
  ⟨exec_setReg (exec_ldVxDt x s), exec_ldDtVx x s, exec_ldStVx x s⟩

end Sys2Proof.Machine
end

section
/-! What stops a step of a running machine (60_exceptions R220 to R226): the word fetched has no row, CALL finds the
stack full or RET finds it empty, or a Reset carries too long an image. -/

namespace Sys2Proof

/-! ### What the decoder's answer says of the word (R78, R104) -/

theorem holds_eq_false_of_decodeWord_error {w : Word} {e : DecodeReject} (h : decodeWord w = .error e) :
    ∀ r ∈ opcodeTable, r.holds w = false := by
  refine fun r hr => Bool.eq_false_iff.2 fun hw => ?_
  rw [decodeWord_of_holds hr hw] at h
  cases h

/-- Only the row of CALL reads a CALL, and only the row of RET reads a RET. -/
theorem table_reads_call_ret (w : Word) : ∀ r ∈ opcodeTable,
    (∀ nnn, r.read w = .call nnn → r.mask = 0xF000 ∧ r.pattern = 0x2000) ∧
    (r.read w = .ret → r.mask = 0xF0FF ∧ r.pattern = 0x00EE) := by
  simp [opcodeTable, opcodeRowsLow, opcodeRowsHigh]

theorem row_of_decodeWord {w : Word} {i : Instr} (h : decodeWord w = .ok i) :
    ∃ r ∈ opcodeTable, w &&& r.mask = r.pattern ∧ r.read w = i := by
  obtain ⟨r, hr, hw, hread⟩ | hill := decodeWord_cases w
  · exact ⟨r, hr, beq_iff_eq.1 hw, Except.ok.inj (hread.symm.trans h)⟩
  · rw [decodeWord_of_illegal hill] at h
    cases h

theorem mask_of_decodeWord_call {w : Word} {nnn : BitVec 12} (h : decodeWord w = .ok (.call nnn)) :
    w &&& 0xF000 = 0x2000 := by
  obtain ⟨r, hr, hmask, hread⟩ := row_of_decodeWord h
  obtain ⟨hm, hp⟩ := (table_reads_call_ret w r hr).1 nnn hread
  rwa [hm, hp] at hmask

theorem mask_of_decodeWord_ret {w : Word} (h : decodeWord w = .ok .ret) : w &&& 0xF0FF = 0x00EE := by
  obtain ⟨r, hr, hmask, hread⟩ := row_of_decodeWord h
  obtain ⟨hm, hp⟩ := (table_reads_call_ret w r hr).2 hread
  rwa [hm, hp] at hmask

theorem decodeWord_wordOfBytes_of_decode_error {b c : Byte} {e : DecodeReject} (h : decode [b, c] = .error e) :
    decodeWord (wordOfBytes b c) = .error e := by
  rw [decode] at h
  cases hd : decodeWord (wordOfBytes b c) with
  | ok i => rw [hd] at h; cases h
  | error _ => rw [hd] at h; cases h; rfl

end Sys2Proof

namespace Sys2Proof.Machine

/-! ### The cycle (R222, R223, R226) -/

theorem cycleEvent_of_decode_error {s : State} {e : DecodeReject} (hs : s.status = .running)
    (he : decodeWord s.fetchWord = .error e) (keys : KeySet) (draw : Byte) :
    cycleEvent keys draw s = .fault (.decodeError s.pc s.fetchWord) := by
  rw [cycleEvent, whenRunning_of_running hs, runCycle, he]
  rfl

/-- Settles O12: a cycle, scripted or not, stops at the decoder, and the word it records is the one fetched. -/
theorem illegalWordRaisesDecodeError : Obligations.IllegalWordRaisesDecodeError := by
  intro s e hs hp hd
  have he : decodeWord s.fetchWord = .error e := decodeWord_wordOfBytes_of_decode_error hd
  refine ⟨s.fetchWord, wordOfBytes_toNat _ _, ?_⟩
  obtain hp | ⟨keys, draw, rest, hp⟩ := hp
  · rw [step_of_unscripted hp]
    exact congrArg (thenTicks _) (cycleEvent_of_decode_error (s := { s with freeIdx := s.freeIdx + 1 }) hs he _ _)
  · rw [step_of_cycle hp]
    exact cycleEvent_of_decode_error (s := { s with pending := rest }) hs he keys draw

/-- The three faults of a cycle that fetches at `PC`, each with its condition. -/
def CycleFault (s : State) (f : Fault) : Prop :=
  (f = .decodeError s.pc s.fetchWord ∧ ∀ r ∈ opcodeTable, r.holds s.fetchWord = false) ∨
  (f = .stackOverflow (s.pc + 2) ∧ s.sp.val = 64 ∧ s.fetchWord &&& 0xF000 = 0x2000) ∨
  (f = .stackUnderflow (s.pc + 2) ∧ s.sp.val = 0 ∧ s.fetchWord &&& 0xF0FF = 0x00EE)

/-- A cycle of a running machine completes or stops with one of the three, and is never refused. -/
theorem cycleEvent_cases {s : State} (hs : s.status = .running) (keys : KeySet) (draw : Byte) :
    (∃ t, cycleEvent keys draw s = .next t) ∨ ∃ f, cycleEvent keys draw s = .fault f ∧ CycleFault s f := by
  cases hd : decodeWord s.fetchWord with
  | error e =>
    have hrows := holds_eq_false_of_decodeWord_error hd
    exact .inr ⟨_, cycleEvent_of_decode_error hs hd keys draw, .inl ⟨rfl, hrows⟩⟩
  | ok i =>
    rw [cycleEvent_of_decodes hs hd]
    obtain ⟨t, ht, -⟩ | ⟨nnn, rfl, hsp, hf⟩ | ⟨rfl, hsp, hf⟩ :=
      exec_cases i { s with keys := keys, draw := draw, pc := s.pc + 2 }
    · exact .inl ⟨t, ht⟩
    · exact .inr ⟨_, hf, .inr (.inl ⟨rfl, hsp, mask_of_decodeWord_call hd⟩)⟩
    · exact .inr ⟨_, hf, .inr (.inr ⟨rfl, hsp, mask_of_decodeWord_ret hd⟩)⟩

/-! ### The step (R220, R225) -/

/-- A step of a running machine completes, or stops with a fault of the cycle or with the LoadOverflow of a Reset. -/
theorem step_cases {s : State} (hs : s.status = .running) :
    (∃ t, step s = .next t) ∨ ∃ f, step s = .fault f ∧ (CycleFault s f ∨
      ∃ image rest, s.pending = .reset image :: rest ∧ Config.maxImage < image.length ∧
        f = .loadOverflow image.length) := by
  cases hp : s.pending with
  | nil =>
    rw [step_of_unscripted hp, freeEvent]
    obtain ⟨t, ht⟩ | ⟨f, hf, hcycle⟩ := cycleEvent_cases (s := { s with freeIdx := s.freeIdx + 1 }) hs
      (Config.freeKeys s.freeIdx) (Config.freeDraw s.freeIdx)
    · exact .inl ⟨_, congrArg (thenTicks _) ht⟩
    · exact .inr ⟨f, congrArg (thenTicks _) hf, .inl hcycle⟩
  | cons event rest =>
    cases event with
    | reset image =>
      rw [step_of_reset hp]
      by_cases hfits : image.length ≤ Config.maxImage
      · exact .inl ⟨_, resetEvent_of_fits hfits _⟩
      · have hlong : Config.maxImage < image.length := Nat.lt_of_not_le hfits
        exact .inr ⟨_, resetEvent_overflow hlong _, .inr ⟨image, rest, rfl, hlong, rfl⟩⟩
    | cycle keys draw =>
      rw [step_of_cycle hp]
      obtain ⟨t, ht⟩ | ⟨f, hf, hcycle⟩ := cycleEvent_cases (s := { s with pending := rest }) hs keys draw
      · exact .inl ⟨t, ht⟩
      · exact .inr ⟨f, hf, .inl hcycle⟩
    | tick => exact .inl ⟨_, step_of_tick_running hs hp⟩

/-- Settles O20: the step completes, or its fault is one of the three of a cycle or that of a Reset. -/
theorem stepStopsOnlyByTheFourFaults : Obligations.StepStopsOnlyByTheFourFaults := by
  intro s hs
  obtain ⟨t, ht⟩ | ⟨g, hg, hcause⟩ := step_cases hs
  · simp [ht]
  · refine ⟨by simp [hg], fun f hf => ?_⟩
    obtain rfl : g = f := Host.Outcome.fault.inj (hg.symm.trans hf)
    obtain (hdecode | hover | hunder) | hload := hcause
    · exact .inl hdecode
    · exact .inr (.inl hover)
    · exact .inr (.inr (.inl hunder))
    · exact .inr (.inr (.inr hload))

end Sys2Proof.Machine
end

section
/-! A new session, the machine of the empty image, and the self jump (70_reset_and_hazards R250, R251, R262). -/

namespace Sys2Proof.Machine

/-! ### The machine of an image that fits (R250) -/

/-- But for the image in memory it is the machine after reset. -/
theorem State.ofImage_eq {image : List Byte} (h : image.length ≤ Config.maxImage) :
    State.ofImage image = { State.reset with mem := State.reset.mem.writeList Config.loadAddr image } := if_pos h

theorem State.ofImage_readByte {image : List Byte} (h : image.length ≤ Config.maxImage) {a : Nat} (ha : a < 4096) :
    (State.ofImage image).readByte a =
      if Config.loadAddr ≤ a then image.getD (a - Config.loadAddr) (resetByte a) else resetByte a := by
  have hroom : Config.loadAddr + image.length ≤ Config.memSize := by
    simp only [Config.maxImage, Config.loadAddr, Config.memSize] at h ⊢; omega
  rw [State.readByte, State.ofImage_eq h, show ea a = a from Nat.mod_eq_of_lt ha,
    Memory.read_writeList State.reset_inv hroom]
  rfl

theorem State.ofImage_readByte_below {image : List Byte} (h : image.length ≤ Config.maxImage) {a : Nat}
    (ha : a < 0x200) : (State.ofImage image).readByte a = resetByte a :=
  (State.ofImage_readByte h (by omega)).trans (if_neg (Nat.not_le_of_lt ha))

/-- From 0x200 up memory holds the image's bytes, then zeros. -/
theorem State.ofImage_readByte_loaded {image : List Byte} (h : image.length ≤ Config.maxImage) {k : Nat}
    (hk : 0x200 + k < 4096) : (State.ofImage image).readByte (0x200 + k) = image.getD k 0 := by
  have hzero : resetByte (Config.loadAddr + k) = 0 :=
    resetByte_of_outside (.inr (Nat.le_add_right_of_le (by decide)))
  have hread := (State.ofImage_readByte h hk).trans (if_pos (Nat.le_add_right Config.loadAddr k))
  rwa [Nat.add_sub_cancel_left, hzero] at hread

theorem step_of_reset_fits {s : State} {image : List Byte} {rest : List HostEvent}
    (hp : s.pending = .reset image :: rest) (h : image.length ≤ Config.maxImage) :
    step s = .next { State.reset with mem := (State.ofImage image).mem, pending := rest, freeIdx := s.freeIdx } := by
  rw [step_of_reset hp, resetEvent_of_fits h, State.ofImage_eq h]

/-- Settles O51: the next state is the reset state with the image placed, whose bytes are the font below 0x200 and the
image, then zeros, above. -/
theorem resetStartsASession : Obligations.ResetStartsASession := by
  intro s image rest hp
  refine ⟨fun hfits => ⟨_, step_of_reset_fits hp hfits, ?_⟩, fun hlong => ⟨?_, ?_⟩⟩
  · have hbelow {a : Nat} (ha : a < 0x200) := State.ofImage_readByte_below hfits ha
    have hloaded {k : Nat} (hk : 0x200 + k < 4096) := State.ofImage_readByte_loaded hfits hk
    refine ⟨fun r => Vector.getElem_replicate r.isLt, rfl, rfl, fun k hk => Vector.getElem_replicate hk, rfl, rfl,
      pixel_blankScreen, rfl, rfl, rfl, fun k hk => ?_, fun k hk => ?_, fun k hlow hhigh => ?_, fun k hk => ?_,
      fun k hlow hhigh => ?_, ?_⟩
    · exact (hbelow (by omega)).trans (resetByte_of_outside (.inl hk))
    · exact (hbelow (by omega)).trans (resetByte_font hk)
    · exact (hbelow hhigh).trans (resetByte_of_outside (.inr hlow))
    · exact (hloaded (by omega)).trans (List.getD_eq_getElem _ _ hk)
    · obtain ⟨j, rfl⟩ := Nat.exists_eq_add_of_le (Nat.le_of_add_right_le hlow)
      exact (hloaded hhigh).trans (List.getD_eq_default _ _ (Nat.le_of_add_le_add_left hlow))
    · exact congrArg₂ wordOfBytes (hloaded (k := 0) (by decide)) (hloaded (k := 1) (by decide))
  · exact (State.ofImage_status image).trans (if_neg (Nat.not_le_of_lt hlong))
  · exact (step_of_reset hp).trans (resetEvent_overflow hlong _)

/-! ### The empty image (R251) -/

theorem State.reset_fetchWord : State.reset.fetchWord = 0x0000 := by decide

theorem decodeWord_zero : decodeWord 0x0000 = .error (.noHandler 0x0 0x00) := by decide

/-- Settles O15: with nothing pending the step is a cycle on the free inputs, and it stops at the decoder before it reads
them. -/
theorem emptyImageStopsAtOnce : Obligations.EmptyImageStopsAtOnce := by
  have hreject : decodeWord State.reset.fetchWord = .error (.noHandler 0x0 0x00) := by
    rw [State.reset_fetchWord, decodeWord_zero]
  have hcycle := cycleEvent_of_decode_error (s := { State.reset with freeIdx := 1 }) rfl hreject (Config.freeKeys 0)
    (Config.freeDraw 0)
  rw [Obligations.EmptyImageStopsAtOnce, step_of_unscripted rfl]
  exact congrArg (thenTicks (Config.freeTicks 0)) hcycle

/-! ### The self jump (R262) -/

/-- Settles O54: the jump sets `PC`, which the cycle had advanced, back to the address it was fetched from. -/
theorem selfJumpStaysPut : Obligations.SelfJumpStaysPut := by
  rintro s keys draw rest ⟨nnn, hdecode, htarget⟩ hs hp
  rw [step_of_cycle hp, cycleEvent_of_decodes (s := { s with pending := rest }) hs hdecode, exec_jp, htarget]
  rfl

end Sys2Proof.Machine
end
